-- ==== Sys2Proof/Config.lean ====
section
/-! DEFINITION. The fixed and open parameters of the machine (00_scope.md R9, R10; 93_implementation_defined.md U3). -/
namespace Sys2Proof

/-- MAGW: the width of the branch magnitude field OFFSET_MAG (R9). -/
def magWidth : Nat := 27

/-- IBYTES: bytes in an instruction word (R9). -/
def instrBytes : Nat := 4

/-- PCW's default: the width in bits of a hardware program counter (R10, decision D2; log entry 10). -/
def defaultPcw : Nat := 32

/-- The values of the parameter SHIFT_GE64: what LSH and RSH give for an amount of 64 or more
(93_implementation_defined.md U3). The value this machine has is `Sys2Proof.Machine.shiftGe64`. -/
inductive ShiftGe64 where
  /-- The result is 0: decision D4, the default. -/
  | zero
  /-- The machine gives such an execution no meaning. -/
  | refuse
  /-- The amount is taken modulo 64. -/
  | mod64
deriving DecidableEq, Repr

end Sys2Proof
end

