-- ==== Sys2Proof/Word.lean ====
section
/-! DEFINITION. The machine's word types (00_scope.md R9, R13, R14). -/
namespace Sys2Proof

/-- XLEN = 64: the width of every general register, operand and result, unsigned (R9, R14). -/
abbrev Word := BitVec 64

/-- ILEN = 32: one instruction word, bit 31 the most significant (R9, R13). -/
abbrev InstrWord := BitVec 32

/-- One byte of the program image (R40). -/
abbrev Byte := BitVec 8

/-- NREG = 16: the index of a general register, always in 0 .. 15 (R9, R22). -/
abbrev RegIdx := Fin 16

end Sys2Proof
end

