-- ==== Sys2Proof/Syntax.lean ====
section
/-! DEFINITION. The abstract syntax: one constructor per row of spec/opcode_table.json (30_encoding.md R67, R68, R70). -/
namespace Sys2Proof

/-- The fields of an ALU word that an instruction may use (format A, R62). A word has all five whether
or not its operation uses them (R64); a field that is not used is carried and ignored (R69). -/
structure AluFields where
  /-- IMM_FLAG: true selects the immediate as operand 2. -/
  immFlag : Bool
  /-- SRC1: the register of operand 1. -/
  src1 : RegIdx
  /-- SRC2: the register of operand 2, ignored when IMM_FLAG = 1. -/
  src2 : RegIdx
  /-- DEST: the destination register. -/
  dest : RegIdx
  /-- IMM: the 8-bit immediate, ignored when IMM_FLAG = 0. -/
  imm : BitVec 8
deriving DecidableEq, Repr

/-- The sign-and-magnitude displacement of a branch word (format B, R63, R66). -/
structure BranchFields where
  /-- SIGN: true is backward, false forward. -/
  sign : Bool
  /-- OFFSET_MAG: the unsigned magnitude, in instructions; below 2^27 in a well-formed instruction. -/
  mag : Nat
deriving DecidableEq, Repr

/-- The 31 instructions: 11 ALU operations, 5 no-ops, 7 named branches, 8 reserved branch codes (R70). -/
inductive Instr where
  | and (a : AluFields)
  | orr (a : AluFields)
  | eor (a : AluFields)
  | add (a : AluFields)
  | adc (a : AluFields)
  | cmp (a : AluFields)
  | sub (a : AluFields)
  | sbc (a : AluFields)
  | mov (a : AluFields)
  | lsh (a : AluFields)
  | rsh (a : AluFields)
  | nop11 (a : AluFields)
  | nop12 (a : AluFields)
  | nop13 (a : AluFields)
  | nop14 (a : AluFields)
  | nop15 (a : AluFields)
  | b (d : BranchFields)
  | beq (d : BranchFields)
  | bne (d : BranchFields)
  | ble (d : BranchFields)
  | bge (d : BranchFields)
  | bl (d : BranchFields)
  | bg (d : BranchFields)
  | br1 (d : BranchFields)
  | br2 (d : BranchFields)
  | br3 (d : BranchFields)
  | br4 (d : BranchFields)
  | br5 (d : BranchFields)
  | br6 (d : BranchFields)
  | br7 (d : BranchFields)
  | br15 (d : BranchFields)
deriving DecidableEq, Repr

/-- The mnemonic of an instruction's row in spec/opcode_table.json. -/
def Instr.mnemonic : Instr → String
  | .and _ => "AND"
  | .orr _ => "ORR"
  | .eor _ => "EOR"
  | .add _ => "ADD"
  | .adc _ => "ADC"
  | .cmp _ => "CMP"
  | .sub _ => "SUB"
  | .sbc _ => "SBC"
  | .mov _ => "MOV"
  | .lsh _ => "LSH"
  | .rsh _ => "RSH"
  | .nop11 _ => "NOP11"
  | .nop12 _ => "NOP12"
  | .nop13 _ => "NOP13"
  | .nop14 _ => "NOP14"
  | .nop15 _ => "NOP15"
  | .b _ => "B"
  | .beq _ => "BEQ"
  | .bne _ => "BNE"
  | .ble _ => "BLE"
  | .bge _ => "BGE"
  | .bl _ => "BL"
  | .bg _ => "BG"
  | .br1 _ => "BR1"
  | .br2 _ => "BR2"
  | .br3 _ => "BR3"
  | .br4 _ => "BR4"
  | .br5 _ => "BR5"
  | .br6 _ => "BR6"
  | .br7 _ => "BR7"
  | .br15 _ => "BR15"

/-! The written forms of the spec's assembler notation (R73), as the field values they stand for. -/

/-- `OP Rd, Ra, Rb` (R73). -/
def asmReg (rd ra rb : RegIdx) : AluFields :=
  { immFlag := false, src1 := ra, src2 := rb, dest := rd, imm := 0 }

/-- `OP Rd, Ra, #n` (R73). -/
def asmImm (rd ra : RegIdx) (n : BitVec 8) : AluFields :=
  { immFlag := true, src1 := ra, src2 := 0, dest := rd, imm := n }

/-- `MOV Rd, Rb` (R73). -/
def asmMovReg (rd rb : RegIdx) : AluFields := asmReg rd 0 rb

/-- `MOV Rd, #n` (R73). -/
def asmMovImm (rd : RegIdx) (n : BitVec 8) : AluFields := asmImm rd 0 n

/-- `CMP Ra, Rb` (R73). -/
def asmCmpReg (ra rb : RegIdx) : AluFields := asmReg 0 ra rb

/-- `CMP Ra, #n` (R73). -/
def asmCmpImm (ra : RegIdx) (n : BitVec 8) : AluFields := asmImm 0 ra n

/-- `NOP11` .. `NOP15`: every other field 0 (R73). -/
def asmNop : AluFields := asmReg 0 0 0

/-- `Bcc +m` (R73). -/
def asmFwd (m : Nat) : BranchFields := { sign := false, mag := m }

/-- `Bcc -m` (R73). -/
def asmBack (m : Nat) : BranchFields := { sign := true, mag := m }

end Sys2Proof
end

