-- ==== Sys2Proof/WellFormed.lean ====
section
/-! DEFINITION. Which instructions a 32-bit word can hold (30_encoding.md R72: the ranges of the fields). -/
namespace Sys2Proof

/-- The magnitude fits its 27-bit field: 0 <= mag <= 2^27 - 1 (R63, R72). -/
def BranchFields.wellFormed (d : BranchFields) : Bool := decide (d.mag < 2 ^ magWidth)

/-- Every ALU instruction is well formed, because the types of its fields have the widths of R62; a
branch is when its magnitude fits (R63). -/
def Instr.wellFormed : Instr → Bool
  | .and _ | .orr _ | .eor _ | .add _ | .adc _ | .cmp _ | .sub _ | .sbc _ | .mov _ | .lsh _ | .rsh _ => true
  | .nop11 _ | .nop12 _ | .nop13 _ | .nop14 _ | .nop15 _ => true
  | .b d | .beq d | .bne d | .ble d | .bge d | .bl d | .bg d => d.wellFormed
  | .br1 d | .br2 d | .br3 d | .br4 d | .br5 d | .br6 d | .br7 d | .br15 d => d.wellFormed

end Sys2Proof
end

