-- ==== Sys2Proof/Decode.lean ====
section
/-! DEFINITION. The decoder and the encoder (30_encoding.md R60 to R72; 20_memory.md R42), and the opcode table's rows (R70). -/
namespace Sys2Proof

/-! ## The decoder -/

/-- The record of R64: all nine fields of a word, whichever its format uses. -/
structure Fields where
  bcc : BitVec 4
  sign : Bool
  mag : BitVec 27
  immFlag : Bool
  opcode : BitVec 4
  src1 : BitVec 4
  src2 : BitVec 4
  dest : BitVec 4
  imm : BitVec 8
deriving DecidableEq, Repr

/-- The decoder's pure bit slicing (R64); it never fails. -/
def decodeFields (w : InstrWord) : Fields :=
  { bcc := w.extractLsb' 28 4
    sign := w.getLsbD 27
    mag := w.extractLsb' 0 27
    immFlag := w.getLsbD 24
    opcode := w.extractLsb' 20 4
    src1 := w.extractLsb' 16 4
    src2 := w.extractLsb' 12 4
    dest := w.extractLsb' 8 4
    imm := w.extractLsb' 0 8 }

/-- The fields of an ALU word (format A, R62); bits 27 to 25 are ignored (log entry 6). -/
def Fields.alu (f : Fields) : AluFields :=
  { immFlag := f.immFlag, src1 := f.src1.toFin, src2 := f.src2.toFin, dest := f.dest.toFin, imm := f.imm }

/-- The fields of a branch word (format B, R63). -/
def Fields.branch (f : Fields) : BranchFields := { sign := f.sign, mag := f.mag.toNat }

/-- The map of the 16 OPCODE values (R67); the last case is 15, the only value left. -/
def decodeAlu (opcode : BitVec 4) (a : AluFields) : Instr :=
  match opcode.toNat with
  | 0 => .and a
  | 1 => .orr a
  | 2 => .eor a
  | 3 => .add a
  | 4 => .adc a
  | 5 => .cmp a
  | 6 => .sub a
  | 7 => .sbc a
  | 8 => .mov a
  | 9 => .lsh a
  | 10 => .rsh a
  | 11 => .nop11 a
  | 12 => .nop12 a
  | 13 => .nop13 a
  | 14 => .nop14 a
  | _ => .nop15 a

/-- The map of the 15 non-zero BCC values (R68); the last case is 15, the only non-zero value left. -/
def decodeBranch (bcc : BitVec 4) (d : BranchFields) : Instr :=
  match bcc.toNat with
  | 1 => .br1 d
  | 2 => .br2 d
  | 3 => .br3 d
  | 4 => .br4 d
  | 5 => .br5 d
  | 6 => .br6 d
  | 7 => .br7 d
  | 8 => .b d
  | 9 => .beq d
  | 10 => .bne d
  | 11 => .ble d
  | 12 => .bge d
  | 13 => .bl d
  | 14 => .bg d
  | _ => .br15 d

/-- The instruction a word encodes: BCC is tested before any other field has a meaning (R61, R76).
Total: every one of the 2^32 words decodes (R70). -/
def decode (w : InstrWord) : Instr :=
  let f := decodeFields w
  if f.bcc = 0 then decodeAlu f.opcode f.alu else decodeBranch f.bcc f.branch

/-! ## Byte order -/

/-- The word of four image bytes, the first the most significant (R42; log entry 9). -/
def wordOfBytes (b0 b1 b2 b3 : Byte) : InstrWord :=
  BitVec.ofNat 32 (b0.toNat * 2 ^ 24 + b1.toNat * 2 ^ 16 + b2.toNat * 2 ^ 8 + b3.toNat)

/-- The four image bytes of a word, in offset order (R42). -/
def bytesOfWord (w : InstrWord) : List Byte :=
  [w.extractLsb' 24 8, w.extractLsb' 16 8, w.extractLsb' 8 8, w.extractLsb' 0 8]

/-- Why a byte sequence is not an instruction. The only reason: no word is illegal (R69). -/
inductive DecodeError where
  /-- Fewer than four bytes are left: the condition the spec names `TruncatedRead` (R49). -/
  | truncatedRead
deriving DecidableEq, Repr

/-- Decoding image bytes: the instruction of the first four and the bytes that follow them (R60, R42). -/
def decodeBytes : List Byte → Except DecodeError (Instr × List Byte)
  | b0 :: b1 :: b2 :: b3 :: rest => .ok (decode (wordOfBytes b0 b1 b2 b3), rest)
  | _ => .error .truncatedRead

/-- What the decoder reads from an instruction whose bits are `w` (the low `nbits` of them; the bits
above are 0), laid out as the image stores it. -/
def decodeTableWord (nbits w : Nat) : Option Instr :=
  match decodeBytes (bytesOfWord (BitVec.ofNat 32 (w % 2 ^ nbits))) with
  | .ok (i, _) => some i
  | .error _ => none

/-! ## The encoder -/

/-- EncodeALU of R72: bits 31 to 25 are 0. -/
def encodeAlu (opcode : Nat) (a : AluFields) : InstrWord :=
  BitVec.ofNat 32 (a.immFlag.toNat * 2 ^ 24 + opcode * 2 ^ 20 + a.src1.val * 2 ^ 16 + a.src2.val * 2 ^ 12
    + a.dest.val * 2 ^ 8 + a.imm.toNat)

/-- EncodeBranch of R72. -/
def encodeBranch (bcc : Nat) (d : BranchFields) : InstrWord :=
  BitVec.ofNat 32 (bcc * 2 ^ 28 + d.sign.toNat * 2 ^ 27 + d.mag)

/-- The word of a well-formed instruction (R67, R68, R72). -/
def encode : Instr → InstrWord
  | .and a => encodeAlu 0 a
  | .orr a => encodeAlu 1 a
  | .eor a => encodeAlu 2 a
  | .add a => encodeAlu 3 a
  | .adc a => encodeAlu 4 a
  | .cmp a => encodeAlu 5 a
  | .sub a => encodeAlu 6 a
  | .sbc a => encodeAlu 7 a
  | .mov a => encodeAlu 8 a
  | .lsh a => encodeAlu 9 a
  | .rsh a => encodeAlu 10 a
  | .nop11 a => encodeAlu 11 a
  | .nop12 a => encodeAlu 12 a
  | .nop13 a => encodeAlu 13 a
  | .nop14 a => encodeAlu 14 a
  | .nop15 a => encodeAlu 15 a
  | .br1 d => encodeBranch 1 d
  | .br2 d => encodeBranch 2 d
  | .br3 d => encodeBranch 3 d
  | .br4 d => encodeBranch 4 d
  | .br5 d => encodeBranch 5 d
  | .br6 d => encodeBranch 6 d
  | .br7 d => encodeBranch 7 d
  | .b d => encodeBranch 8 d
  | .beq d => encodeBranch 9 d
  | .bne d => encodeBranch 10 d
  | .ble d => encodeBranch 11 d
  | .bge d => encodeBranch 12 d
  | .bl d => encodeBranch 13 d
  | .bg d => encodeBranch 14 d
  | .br15 d => encodeBranch 15 d

/-! ## The opcode table -/

/-- One row of spec/opcode_table.json: a word is in the row's class when `word &&& mask = pattern` (R70). -/
structure TableRow where
  mnemonic : String
  mask : InstrWord
  pattern : InstrWord
deriving DecidableEq, Repr

/-- A format A row: BCC = 0 and the OPCODE field. -/
def aluRow (mnemonic : String) (opcode : Nat) : TableRow :=
  { mnemonic := mnemonic, mask := 0xF0F00000, pattern := BitVec.ofNat 32 (opcode * 2 ^ 20) }

/-- A format B row: the BCC field. -/
def branchRow (mnemonic : String) (bcc : Nat) : TableRow :=
  { mnemonic := mnemonic, mask := 0xF0000000, pattern := BitVec.ofNat 32 (bcc * 2 ^ 28) }

/-- The 31 rows of spec/opcode_table.json, in its order. -/
def opcodeTable : List TableRow :=
  [aluRow "AND" 0, aluRow "ORR" 1, aluRow "EOR" 2, aluRow "ADD" 3, aluRow "ADC" 4, aluRow "CMP" 5,
   aluRow "SUB" 6, aluRow "SBC" 7, aluRow "MOV" 8, aluRow "LSH" 9, aluRow "RSH" 10, aluRow "NOP11" 11,
   aluRow "NOP12" 12, aluRow "NOP13" 13, aluRow "NOP14" 14, aluRow "NOP15" 15]
  ++ [branchRow "B" 8, branchRow "BEQ" 9, branchRow "BNE" 10, branchRow "BLE" 11, branchRow "BGE" 12,
   branchRow "BL" 13, branchRow "BG" 14, branchRow "BR1" 1, branchRow "BR2" 2, branchRow "BR3" 3,
   branchRow "BR4" 4, branchRow "BR5" 5, branchRow "BR6" 6, branchRow "BR7" 7, branchRow "BR15" 15]

end Sys2Proof
end

