-- ==== Sys2Proof/Machine/State.lean ====
section
/-! DEFINITION. The machine's state, the ways it stops, and the state after reset (10_state.md R20, R27, R35). -/
namespace Sys2Proof.Machine

/-- The six comparison flags, stored independently (R29, R30). -/
structure CmpFlags where
  eq : Bool
  ne : Bool
  le : Bool
  ge : Bool
  lt : Bool
  gt : Bool
deriving DecidableEq, Repr

/-- The bytes of the program image by byte offset (20_memory.md R40): offsets strictly rising, and an
offset that is not listed has no byte (R49; log entry 9). -/
abbrev Memory := List Host.Cell

/-- The complete architectural state of the core (R20), and the two launch parameters a step reads. -/
structure State where
  /-- R0 .. R15; none is hardwired (R21). -/
  regs : Vector Word 16
  /-- C, the carry flag (R28). -/
  carry : Bool
  /-- EQ, NE, LE, GE, LT, GT (R29). -/
  cmp : CmpFlags
  /-- The program counter: a signed instruction index, unbounded in the model (R25; log entry 1). -/
  pc : Int
  /-- The latch that `TruncatedRead` sets (R27, R163; log entry 5). -/
  fault : Bool
  /-- IC, the number of words the program image is said to have: a launch parameter (R10; log entry 8). -/
  ic : Nat
  /-- The read-only program image: a launch parameter (R40; log entry 8). -/
  image : Memory
deriving DecidableEq, Repr

/-- The run state, computed from `pc`, `fault` and IC (R27). -/
inductive RunState where
  | running
  | terminatedOk
  | terminatedError
  | terminatedFault
deriving DecidableEq, Repr

/-- The ways a run ends (60_exceptions.md R161). `MalformedRegisterEntry` is no condition of the core (R164). -/
inductive TerminalCondition where
  /-- The run ran past the end: `pc` >= IC. -/
  | normalEnd
  /-- A branch computed `pc` < 0. -/
  | negativeProgramCounter
  /-- The fetch at `pc` failed. -/
  | truncatedRead
deriving DecidableEq, Repr

/-- Why no step exists. A terminated state has none and is frozen until reset (R27, R169), so `step`
stops there by name (log entry 7). -/
inductive Fault where
  /-- Raised by `step` in TERMINATED_OK, the normal end of a run (R161). Safe: the spec gives no step there. -/
  | terminatedOk
  /-- Raised by `step` in TERMINATED_ERROR, after `NegativeProgramCounter` (R162). Safe: the spec gives no step there. -/
  | terminatedError
  /-- Raised by `step` in TERMINATED_FAULT, after `TruncatedRead` (R163). Safe: the spec gives no step there. -/
  | terminatedFault
deriving DecidableEq, Repr

/-- What the machine gives no meaning. -/
inductive Refusal where
  /-- An instruction without a meaning in the model, by the opcode table's name. Raised by no arm: every
  instruction has its meaning. Safe. -/
  | notModelled (mnemonic : String)
  /-- Raised by LSH and RSH for an amount of 64 or more if SHIFT_GE64 is `refuse` (93 U3). Never raised under
  the default `zero` (log entry 2). Safe. -/
  | shiftAmountUnspecified
  /-- Raised by `launch` when IC exceeds 2^(PCW-1) - 2^27 (92 D2, R194 ICBound; log entry 10). Safe. -/
  | icBoundViolated
deriving DecidableEq, Repr

/-- The state after reset, before the host has set an image and called `load_registers` (R35, R180): every
register, flag, `pc` and `fault` 0. That no image and IC = 0 stand beside it is the model's choice (log entry 8). -/
def State.reset : State :=
  { regs := Vector.replicate 16 0
    carry := false
    cmp := { eq := false, ne := false, le := false, ge := false, lt := false, gt := false }
    pc := 0
    fault := false
    ic := 0
    image := [] }

end Sys2Proof.Machine
end

