-- ==== Sys2Proof/Machine/Ops.lean ====
section
/-! DEFINITION. The named operations over registers, program counter, program image and run state
(10_state.md R21 to R27; 20_memory.md R40 to R49; 60_exceptions.md R160 to R163). -/
namespace Sys2Proof.Machine

/-! ## Registers -/

/-- `x[i]` (R15, R21). -/
def readReg (s : State) (i : RegIdx) : Word := s.regs[i]

/-- `x[i] <- v` (R15, R21): every register is writable. -/
def writeReg (s : State) (i : RegIdx) (v : Word) : State := { s with regs := s.regs.set i v }

/-! ## Program counter -/

/-- `pc <- target` (R15). -/
def setPc (s : State) (target : Int) : State := { s with pc := target }

/-- `pc <- pc + 1`: what the fetch phase commits for an ALU word and a branch not taken (R81). -/
def advance (s : State) : State := setPc s (s.pc + 1)

/-! ## Flags -/

/-- `C <- b` (R28). -/
def setCarry (s : State) (b : Bool) : State := { s with carry := b }

/-- All six comparison flags at once: nothing writes one of them alone (R29). -/
def setCmp (s : State) (f : CmpFlags) : State := { s with cmp := f }

/-! ## The program image -/

/-- The byte at a byte offset; none where the image has no byte (R49; log entry 9). -/
def Memory.read : Memory → Nat → Option Byte
  | [], _ => none
  | (a, v) :: m, x => if a = x then some v else Memory.read m x

/-- Placing one byte of an image. Only the host does: no instruction writes memory (R55). -/
def Memory.write : Memory → Nat → Byte → Memory
  | [], x, v => [(x, v)]
  | (a, u) :: m, x, v =>
    if x < a then (x, v) :: (a, u) :: m
    else if x = a then (x, v) :: m
    else (a, u) :: Memory.write m x v

/-- Offsets strictly rising, none below `low`. -/
def Memory.wfFrom (low : Nat) : Memory → Bool
  | [] => true
  | (a, _) :: m => decide (low ≤ a) && Memory.wfFrom (a + 1) m

/-- The canonical form of an image: offsets strictly rising. No entry equals what an unlisted offset reads
as, because an unlisted offset has no byte. -/
def Memory.wf (m : Memory) : Bool := Memory.wfFrom 0 m

/-- Placing bytes at rising offsets. -/
def Memory.writeBytes (m : Memory) (x : Nat) : List Byte → Memory
  | [] => m
  | v :: vs => Memory.writeBytes (Memory.write m x v) (x + 1) vs

/-- Placing the word of index `i`: the four bytes at 4i .. 4i+3, the most significant first (R40, R42). -/
def Memory.placeWord (m : Memory) (i : Nat) (w : InstrWord) : Memory :=
  Memory.writeBytes m (instrBytes * i) (bytesOfWord w)

/-- `read_word(i)`: the big-endian word at byte offset 4i, or none, the failure `TruncatedRead`, when the
image lacks one of its four bytes (R41, R42, R48, R49). -/
def readWord (m : Memory) (i : Nat) : Option InstrWord :=
  match Memory.read m (instrBytes * i), Memory.read m (instrBytes * i + 1),
      Memory.read m (instrBytes * i + 2), Memory.read m (instrBytes * i + 3) with
  | some b0, some b1, some b2, some b3 => some (wordOfBytes b0 b1 b2 b3)
  | _, _, _, _ => none

/-- `FetchWord(pc)` (R48), asked only while RUNNING, where `pc` is no negative number. -/
def fetchWord (s : State) : Option InstrWord := readWord s.image s.pc.toNat

/-! ## Run state and terminal conditions -/

/-- RunState(pc, fault, IC) of R27. -/
def runStateOf (pc : Int) (fault : Bool) (ic : Nat) : RunState :=
  if fault then .terminatedFault
  else if pc < 0 then .terminatedError
  else if pc < ic then .running
  else .terminatedOk

/-- The run state of a state (R27). -/
def runState (s : State) : RunState := runStateOf s.pc s.fault s.ic

/-- The condition that ended a run, if one has (R161); the recorded information is `pc`. -/
def terminalCondition (s : State) : Option TerminalCondition :=
  match runState s with
  | .running => none
  | .terminatedOk => some .normalEnd
  | .terminatedError => some .negativeProgramCounter
  | .terminatedFault => some .truncatedRead

/-- `raise TruncatedRead`, the one condition a step raises itself: the latch is set and nothing else of the
state changes; there is no handler, no saved state and no return (R160, R163, R168, R169; log entry 5). -/
def raiseTruncatedRead (s : State) : State := { s with fault := true }

/-- The word `w` at the index the next step fetches, with what the fetch needs: no fault latched, a
`pc` that is no negative number, and an IC above it. A host's load, not a step (log entry 8). -/
def placeAtPc (s : State) (w : InstrWord) : State :=
  { s with
    pc := (s.pc.toNat : Int)
    fault := false
    ic := max s.ic (s.pc.toNat + 1)
    image := Memory.placeWord s.image s.pc.toNat w }

end Sys2Proof.Machine
end

