-- ==== Sys2Proof/Machine/Flags.lean ====
section
/-! DEFINITION. The flag computations and the branch target (43_alu_arith.md R130, R131, R135; 44_alu_compare.md R140;
41_branch.md R100, R109). -/
namespace Sys2Proof.Machine

/-- The carry that ADD and ADC write: 1 iff op1 + op2 >= 2^64. ADC's carry-in is not part of the test (R130, R131). -/
def addCarry (op1 op2 : Word) : Bool := decide (2 ^ 64 ≤ op1.toNat + op2.toNat)

/-- The six flags CMP writes, each the truth value of its unsigned relation (R140). -/
def compareFlags (op1 op2 : Word) : CmpFlags :=
  { eq := decide (op1.toNat = op2.toNat)
    ne := decide (op1.toNat ≠ op2.toNat)
    le := decide (op1.toNat ≤ op2.toNat)
    ge := decide (op2.toNat ≤ op1.toNat)
    lt := decide (op1.toNat < op2.toNat)
    gt := decide (op2.toNat < op1.toNat) }

/-- CondHolds of R109, by the 4-bit code; asked only for a code other than 0. -/
def condHolds (bcc : Nat) (f : CmpFlags) : Bool :=
  match bcc with
  | 9 => f.eq
  | 10 => f.ne
  | 11 => f.le
  | 12 => f.ge
  | 13 => f.lt
  | 14 => f.gt
  | _ => true

/-- A taken branch's target, relative to the branch's own index (R66, R100). -/
def branchTarget (d : BranchFields) (pc : Int) : Int :=
  if d.sign then pc - d.mag else pc + d.mag

/-- A branch word's step: `pc` moves to the target when the code's condition holds and to `pc + 1` otherwise;
no register and no flag is written (R100). -/
def branchStep (bcc : Nat) (d : BranchFields) (s : State) : State :=
  if condHolds bcc s.cmp then setPc s (branchTarget d s.pc) else advance s

end Sys2Proof.Machine
end

