-- ==== Sys2Proof/Machine/Operands.lean ====
section
/-! DEFINITION. Operand selection and the results of the ALU (40_cycle_and_decoder.md R82; 43_alu_arith.md R130 to R134;
45_alu_shift.md R145, R146). -/
namespace Sys2Proof.Machine

/-- op1 = `x[SRC1]` (R82). -/
def operand1 (a : AluFields) (s : State) : Word := readReg s a.src1

/-- op2 = `zext_64(IMM)` when IMM_FLAG = 1, else `x[SRC2]` (R82, R65). -/
def operand2 (a : AluFields) (s : State) : Word :=
  if a.immFlag then a.imm.zeroExtend 64 else readReg s a.src2

/-- (op1 + op2 + cin) mod 2^64 (R130, R131). -/
def sumWord (op1 op2 : Word) (cin : Bool) : Word :=
  BitVec.ofNat 64 (op1.toNat + op2.toNat + cin.toNat)

/-- (op1 - op2) mod 2^64 (R132). -/
def diffWord (op1 op2 : Word) : Word :=
  BitVec.ofInt 64 ((op1.toNat : Int) - op2.toNat)

/-- (op1 - op2 + cin - 1) mod 2^64 (R133). -/
def diffCarryWord (op1 op2 : Word) (cin : Bool) : Word :=
  BitVec.ofInt 64 ((op1.toNat : Int) - op2.toNat + cin.toNat - 1)

/-- The parameter SHIFT_GE64 at its default `zero`: a shift by 64 or more gives 0 (decision D4 as R145 and R146
state it; 93 U3; log entry 2). -/
def shiftGe64 : ShiftGe64 := .zero

/-- A shift by the whole 64-bit amount: `shift` gives the result below 64; from 64 on SHIFT_GE64 does
(R145, R146). None: the execution has no meaning. -/
def shiftResult (shift : Nat → Word) (amount : Word) : Option Word :=
  if amount.toNat < 64 then some (shift amount.toNat)
  else match shiftGe64 with
    | .zero => some 0
    | .mod64 => some (shift (amount.toNat % 64))
    | .refuse => none

/-- (op1 x 2^n) mod 2^64, for n below 64 (R145). -/
def lshWord (op1 : Word) (n : Nat) : Word := BitVec.ofNat 64 (op1.toNat * 2 ^ n)

/-- floor(op1 / 2^n), for n below 64 (R146). -/
def rshWord (op1 : Word) (n : Nat) : Word := BitVec.ofNat 64 (op1.toNat / 2 ^ n)

/-- The step of an ALU word that writes `x[DEST]`: `pc` advances and the result, computed from the state before
the step, is written (R81, R83, R84). -/
def finishAlu (a : AluFields) (v : Word) (s : State) : State := writeReg (advance s) a.dest v

end Sys2Proof.Machine
end

