-- ==== Sys2Proof/Machine/Arith.lean ====
section
/-! DEFINITION. The arithmetic instructions ADD, ADC, SUB, SBC (43_alu_arith.md R130 to R135). -/
namespace Sys2Proof.Machine

/-- ADD: the sum without the carry-in; C is written on every execution (R130). -/
def execAdd (a : AluFields) (s : State) : Host.Outcome State Fault Refusal :=
  .next (setCarry (finishAlu a (sumWord (operand1 a s) (operand2 a s) false) s) (addCarry (operand1 a s) (operand2 a s)))

/-- ADC: the sum with the carry as the previous step left it; C by the same test as ADD, the carry-in left out (R131). -/
def execAdc (a : AluFields) (s : State) : Host.Outcome State Fault Refusal :=
  .next (setCarry (finishAlu a (sumWord (operand1 a s) (operand2 a s) s.carry) s) (addCarry (operand1 a s) (operand2 a s)))

/-- SUB: the wrapping difference; no flag, no borrow (R132). -/
def execSub (a : AluFields) (s : State) : Host.Outcome State Fault Refusal :=
  .next (finishAlu a (diffWord (operand1 a s) (operand2 a s)) s)

/-- SBC: op1 - op2 + C - 1, wrapping; C is read and kept (R133). -/
def execSbc (a : AluFields) (s : State) : Host.Outcome State Fault Refusal :=
  .next (finishAlu a (diffCarryWord (operand1 a s) (operand2 a s) s.carry) s)

end Sys2Proof.Machine
end

