-- ==== Sys2Proof/Machine/Branch.lean ====
section
/-! DEFINITION. The branch instructions, named and reserved (41_branch.md R100 to R112). -/
namespace Sys2Proof.Machine

/-- B: branch always (R101). -/
def execB (d : BranchFields) (s : State) : Host.Outcome State Fault Refusal :=
  .next (branchStep 8 d s)

/-- BEQ: branch if EQ (R102). -/
def execBeq (d : BranchFields) (s : State) : Host.Outcome State Fault Refusal :=
  .next (branchStep 9 d s)

/-- BNE: branch if NE (R103). -/
def execBne (d : BranchFields) (s : State) : Host.Outcome State Fault Refusal :=
  .next (branchStep 10 d s)

/-- BLE: branch if LE (R104). -/
def execBle (d : BranchFields) (s : State) : Host.Outcome State Fault Refusal :=
  .next (branchStep 11 d s)

/-- BGE: branch if GE (R105). -/
def execBge (d : BranchFields) (s : State) : Host.Outcome State Fault Refusal :=
  .next (branchStep 12 d s)

/-- BL: branch if LT; it links nothing (R106, R112). -/
def execBl (d : BranchFields) (s : State) : Host.Outcome State Fault Refusal :=
  .next (branchStep 13 d s)

/-- BG: branch if GT (R107). -/
def execBg (d : BranchFields) (s : State) : Host.Outcome State Fault Refusal :=
  .next (branchStep 14 d s)

/-- BR1: reserved branch code 1, always taken, as B (R108). -/
def execBr1 (d : BranchFields) (s : State) : Host.Outcome State Fault Refusal :=
  .next (branchStep 1 d s)

/-- BR2: reserved branch code 2, always taken, as B (R108). -/
def execBr2 (d : BranchFields) (s : State) : Host.Outcome State Fault Refusal :=
  .next (branchStep 2 d s)

/-- BR3: reserved branch code 3, always taken, as B (R108). -/
def execBr3 (d : BranchFields) (s : State) : Host.Outcome State Fault Refusal :=
  .next (branchStep 3 d s)

/-- BR4: reserved branch code 4, always taken, as B (R108). -/
def execBr4 (d : BranchFields) (s : State) : Host.Outcome State Fault Refusal :=
  .next (branchStep 4 d s)

/-- BR5: reserved branch code 5, always taken, as B (R108). -/
def execBr5 (d : BranchFields) (s : State) : Host.Outcome State Fault Refusal :=
  .next (branchStep 5 d s)

/-- BR6: reserved branch code 6, always taken, as B (R108). -/
def execBr6 (d : BranchFields) (s : State) : Host.Outcome State Fault Refusal :=
  .next (branchStep 6 d s)

/-- BR7: reserved branch code 7, always taken, as B (R108). -/
def execBr7 (d : BranchFields) (s : State) : Host.Outcome State Fault Refusal :=
  .next (branchStep 7 d s)

/-- BR15: reserved branch code 15, always taken, as B (R108). -/
def execBr15 (d : BranchFields) (s : State) : Host.Outcome State Fault Refusal :=
  .next (branchStep 15 d s)

end Sys2Proof.Machine
end

