-- ==== Sys2Proof/Machine/Compare.lean ====
section
/-! DEFINITION. The compare instruction CMP (44_alu_compare.md R140 to R142). -/
namespace Sys2Proof.Machine

/-- CMP: all six comparison flags; no register, whatever DEST holds; C kept (R140). -/
def execCmp (a : AluFields) (s : State) : Host.Outcome State Fault Refusal :=
  .next (setCmp (advance s) (compareFlags (operand1 a s) (operand2 a s)))

end Sys2Proof.Machine
end

