-- ==== Sys2Proof/Machine/Logic.lean ====
section
/-! DEFINITION. The logic and move instructions AND, ORR, EOR, MOV (42_alu_logic_move.md R120 to R124). -/
namespace Sys2Proof.Machine

/-- AND: `x[dest] <- op1 & op2`; no flag (R121). -/
def execAnd (a : AluFields) (s : State) : Host.Outcome State Fault Refusal :=
  .next (finishAlu a (operand1 a s &&& operand2 a s) s)

/-- ORR: `x[dest] <- op1 | op2`; no flag (R122). -/
def execOrr (a : AluFields) (s : State) : Host.Outcome State Fault Refusal :=
  .next (finishAlu a (operand1 a s ||| operand2 a s) s)

/-- EOR: `x[dest] <- op1 ^ op2`; no flag (R123). -/
def execEor (a : AluFields) (s : State) : Host.Outcome State Fault Refusal :=
  .next (finishAlu a (operand1 a s ^^^ operand2 a s) s)

/-- MOV: `x[dest] <- op2`; SRC1 plays no part; no flag (R124). -/
def execMov (a : AluFields) (s : State) : Host.Outcome State Fault Refusal :=
  .next (finishAlu a (operand2 a s) s)

end Sys2Proof.Machine
end

