-- ==== Sys2Proof/Machine/Nop.lean ====
section
/-! DEFINITION. The unsupported ALU opcodes 11 to 15, architected no-ops (46_alu_nop.md R150, R151). -/
namespace Sys2Proof.Machine

/-- NOP11: `pc <- pc + 1` and nothing else; every field is ignored (R150). -/
def execNop11 (_a : AluFields) (s : State) : Host.Outcome State Fault Refusal :=
  .next (advance s)

/-- NOP12: `pc <- pc + 1` and nothing else; every field is ignored (R150). -/
def execNop12 (_a : AluFields) (s : State) : Host.Outcome State Fault Refusal :=
  .next (advance s)

/-- NOP13: `pc <- pc + 1` and nothing else; every field is ignored (R150). -/
def execNop13 (_a : AluFields) (s : State) : Host.Outcome State Fault Refusal :=
  .next (advance s)

/-- NOP14: `pc <- pc + 1` and nothing else; every field is ignored (R150). -/
def execNop14 (_a : AluFields) (s : State) : Host.Outcome State Fault Refusal :=
  .next (advance s)

/-- NOP15: `pc <- pc + 1` and nothing else; every field is ignored (R150). -/
def execNop15 (_a : AluFields) (s : State) : Host.Outcome State Fault Refusal :=
  .next (advance s)

end Sys2Proof.Machine
end

