-- ==== Sys2Proof/Machine/Shift.lean ====
section
/-! DEFINITION. The shift instructions LSH, RSH (45_alu_shift.md R145 to R147). -/
namespace Sys2Proof.Machine

/-- The step of a shift whose result is `r`; a shift that has none is refused by name (93 U3; log entry 2). -/
def finishShift (a : AluFields) (r : Option Word) (s : State) : Host.Outcome State Fault Refusal :=
  match r with
  | some v => .next (finishAlu a v s)
  | none => .refused .shiftAmountUnspecified

/-- LSH: logical left shift by the whole of op2; no flag (R145). -/
def execLsh (a : AluFields) (s : State) : Host.Outcome State Fault Refusal :=
  finishShift a (shiftResult (lshWord (operand1 a s)) (operand2 a s)) s

/-- RSH: logical right shift by the whole of op2; no flag (R146). -/
def execRsh (a : AluFields) (s : State) : Host.Outcome State Fault Refusal :=
  finishShift a (shiftResult (rshWord (operand1 a s)) (operand2 a s)) s

end Sys2Proof.Machine
end

