-- ==== Sys2Proof/Machine/Dispatch.lean ====
section
/-! DEFINITION. One arm per instruction: its meaning, as a whole step at the state whose `pc` is its own index. -/
namespace Sys2Proof.Machine

-- The meanings follow R87 and the instruction rules of 41 to 46; `step` asks for one only while RUNNING (R27).
def exec (i : Instr) (s : State) : Host.Outcome State Fault Refusal :=
  match i with
  | .and a => Sys2Proof.Machine.execAnd a s
  | .orr a => Sys2Proof.Machine.execOrr a s
  | .eor a => Sys2Proof.Machine.execEor a s
  | .add a => Sys2Proof.Machine.execAdd a s
  | .adc a => Sys2Proof.Machine.execAdc a s
  | .cmp a => Sys2Proof.Machine.execCmp a s
  | .sub a => Sys2Proof.Machine.execSub a s
  | .sbc a => Sys2Proof.Machine.execSbc a s
  | .mov a => Sys2Proof.Machine.execMov a s
  | .lsh a => Sys2Proof.Machine.execLsh a s
  | .rsh a => Sys2Proof.Machine.execRsh a s
  | .nop11 a => Sys2Proof.Machine.execNop11 a s
  | .nop12 a => Sys2Proof.Machine.execNop12 a s
  | .nop13 a => Sys2Proof.Machine.execNop13 a s
  | .nop14 a => Sys2Proof.Machine.execNop14 a s
  | .nop15 a => Sys2Proof.Machine.execNop15 a s
  | .b d => Sys2Proof.Machine.execB d s
  | .beq d => Sys2Proof.Machine.execBeq d s
  | .bne d => Sys2Proof.Machine.execBne d s
  | .ble d => Sys2Proof.Machine.execBle d s
  | .bge d => Sys2Proof.Machine.execBge d s
  | .bl d => Sys2Proof.Machine.execBl d s
  | .bg d => Sys2Proof.Machine.execBg d s
  | .br1 d => Sys2Proof.Machine.execBr1 d s
  | .br2 d => Sys2Proof.Machine.execBr2 d s
  | .br3 d => Sys2Proof.Machine.execBr3 d s
  | .br4 d => Sys2Proof.Machine.execBr4 d s
  | .br5 d => Sys2Proof.Machine.execBr5 d s
  | .br6 d => Sys2Proof.Machine.execBr6 d s
  | .br7 d => Sys2Proof.Machine.execBr7 d s
  | .br15 d => Sys2Proof.Machine.execBr15 d s

end Sys2Proof.Machine
end

