-- ==== Sys2Proof/Machine/Step.lean ====
section
/-! DEFINITION. One step of the machine, and the placing of an instruction where the next step fetches
(40_cycle_and_decoder.md R80, R81, R87; 10_state.md R27). -/
namespace Sys2Proof.Machine

/-- One fetch-decode-execute step (R80, R87). A step exists only in RUNNING (R27): a terminated state stops by
name (log entry 7). A fetch that fails latches the fault and does nothing else (R163). -/
def step (s : State) : Host.Outcome State Fault Refusal :=
  match runState s with
  | .running =>
    match fetchWord s with
    | some w => exec (decode w) s
    | none => .next (raiseTruncatedRead s)
  | .terminatedOk => .fault .terminatedOk
  | .terminatedError => .fault .terminatedError
  | .terminatedFault => .fault .terminatedFault

/-- `s` with the instruction whose low `nbits` bits are those of `w`, the bits above being 0, where the next step
fetches, and with what that fetch needs (log entry 8). -/
def State.withFetchWord (s : State) (nbits w : Nat) : State :=
  placeAtPc s (BitVec.ofNat 32 (w % 2 ^ nbits))

end Sys2Proof.Machine
end

