-- ==== Sys2Proof/Machine/Reference.lean ====
section
/-! DEFINITION. The spec's own summary of the whole step, R87, written over the word's fields: what `step`, which goes
through the instructions and their meanings, is held against (40_cycle_and_decoder.md R87). -/
namespace Sys2Proof.Machine

/-- The effect of an ALU word's operation in R87's case list, on a state whose `pc` has advanced. The shift arms
use the shift of a 64-bit value by a 64-bit amount, which is 0 from 64 on (decision D4; log entry 2). -/
def wholeAlu (opcode : Nat) (dest : RegIdx) (op1 op2 : Word) (s : State) : State :=
  match opcode with
  | 0 => writeReg s dest (op1 &&& op2)
  | 1 => writeReg s dest (op1 ||| op2)
  | 2 => writeReg s dest (op1 ^^^ op2)
  | 3 => setCarry (writeReg s dest (op1 + op2)) (BitVec.carry 64 op1 op2 false)
  | 4 => setCarry (writeReg s dest (op1 + op2 + BitVec.zeroExtend 64 (BitVec.ofBool s.carry))) (BitVec.carry 64 op1 op2 false)
  | 5 => setCmp s { eq := op1 == op2, ne := op1 != op2, le := op1.ule op2, ge := op2.ule op1,
                    lt := op1.ult op2, gt := op2.ult op1 }
  | 6 => writeReg s dest (op1 - op2)
  | 7 => writeReg s dest (op1 - op2 + BitVec.zeroExtend 64 (BitVec.ofBool s.carry) - 1)
  | 8 => writeReg s dest op2
  | 9 => writeReg s dest (op1 <<< op2)
  | 10 => writeReg s dest (op1 >>> op2)
  | _ => s

/-- R87 for a word that the fetch has answered. -/
def wholeStep (w : InstrWord) (s : State) : State :=
  let f := decodeFields w
  if f.bcc ≠ 0 then
    if condHolds f.bcc.toNat s.cmp then
      setPc s (if f.sign then s.pc - f.mag.toNat else s.pc + f.mag.toNat)
    else advance s
  else
    wholeAlu f.opcode.toNat f.dest.toFin (readReg s f.src1.toFin)
      (if f.immFlag then f.imm.zeroExtend 64 else readReg s f.src2.toFin) (advance s)

end Sys2Proof.Machine
end

