-- ==== Sys2Proof/Machine/Launch.lean ====
section
/-! DEFINITION. The host's operations before and after a run: reset, launch, `load_registers`, the result
(70_reset_and_hazards.md R180 to R184, R190 to R194; 60_exceptions.md R178). -/
namespace Sys2Proof.Machine

/-- The sixteen register indices, in the order of R182's loop. -/
def allRegs : List RegIdx := [0, 1, 2, 3, 4, 5, 6, 7, 8, 9, 10, 11, 12, 13, 14, 15]

/-- A partial map from register to value: the initial registers (R10, R182). -/
abbrev InitMap := Vector (Option Word) 16

/-- The launch parameters of R10. -/
structure LaunchParams where
  /-- IC, given with the image; the core never computes it (D3). -/
  ic : Nat
  /-- The program image behind `read_word` (R41). -/
  image : Memory
  /-- The map given to `load_registers` (R182). -/
  init : InitMap
  /-- The width of a hardware program counter (D2; log entry 10). -/
  pcw : Nat := defaultPcw
deriving DecidableEq, Repr

/-- Reset: every piece of state at its reset value; the launch parameters are no state and stay until the host
sets them (R180, R193). -/
def applyReset (s : State) : State := { State.reset with ic := s.ic, image := s.image }

/-- One turn of R182's loop: `x[i] <- init(Ri)` if `init` names Ri. -/
def loadRegister (init : InitMap) (s : State) (i : RegIdx) : State :=
  match init[i] with
  | some v => writeReg s i v
  | none => s

/-- `load_registers(init)`: only the named registers; never the flags, `pc` or `fault`. R15 can be named
(R182; log entry 4). -/
def loadRegisters (init : InitMap) (s : State) : State := allRegs.foldl (loadRegister init) s

/-- ICBound: IC <= 2^(PCW-1) - 2^27 (R10, R194). -/
def icBound (pcw ic : Nat) : Bool := decide (ic + 2 ^ magWidth ≤ 2 ^ (pcw - 1))

/-- The state a run starts from: reset, then image and IC, then `load_registers` (R181 items 1 to 4). -/
def launchState (p : LaunchParams) : State :=
  loadRegisters p.init { State.reset with ic := p.ic, image := p.image }

/-- The launch: refused when IC exceeds the bound (R194, D2; log entry 10). -/
def launch (p : LaunchParams) : Host.Outcome State Fault Refusal :=
  if icBound p.pcw p.ic then .next (launchState p) else .refused .icBoundViolated

/-- An image of the given words from index `i` on (R40). -/
def Memory.placeWords (m : Memory) (i : Nat) : List InstrWord → Memory
  | [] => m
  | w :: ws => Memory.placeWords (Memory.placeWord m i w) (i + 1) ws

/-- What the host reads after termination (R178, R191; log entry 12). -/
structure Result where
  regs : Vector Word 16
  condition : TerminalCondition
  pc : Int
  carry : Bool
  cmp : CmpFlags
  fault : Bool
deriving DecidableEq, Repr

/-- The result of a run, none while the core is RUNNING (R179, R190, R191). -/
def readResult (s : State) : Option Result :=
  (terminalCondition s).map fun c =>
    { regs := s.regs, condition := c, pc := s.pc, carry := s.carry, cmp := s.cmp, fault := s.fault }

/-- The two-valued report: true is OK; TERMINATED_FAULT is reported as ERROR (R163, R178). -/
def reportsOk (c : TerminalCondition) : Bool :=
  match c with
  | .normalEnd => true
  | .negativeProgramCounter => false
  | .truncatedRead => false

/-- The 2-bit encoding decision D12 offers; no rule depends on it (R178). -/
def runStateCode : RunState → BitVec 2
  | .running => 0
  | .terminatedOk => 1
  | .terminatedError => 2
  | .terminatedFault => 3

end Sys2Proof.Machine
end

