-- ==== Sys2Proof/Machine/Run.lean ====
section
/-! DEFINITION. Runs: R86's loop under fuel, since a run need not end (40_cycle_and_decoder.md R86, R90). -/
namespace Sys2Proof.Machine

/-- R86's loop for at most `fuel` steps: it stops at a state that is not RUNNING, and at a refused instruction. -/
def runFor : Nat → State → State
  | 0, s => s
  | fuel + 1, s =>
    match runState s with
    | .running =>
      match step s with
      | .next t => runFor fuel t
      | .fault _ => s
      | .refused _ => s
    | .terminatedOk => s
    | .terminatedError => s
    | .terminatedFault => s

/-- A state's run ends in `t`: some number of steps reaches `t`, which is not RUNNING (R86, R90, R189). -/
def RunEnds (s t : State) : Prop := ∃ fuel, runFor fuel s = t ∧ runState t ≠ .running

end Sys2Proof.Machine
end

