-- ==== Sys2Proof/Safety.lean ====
section
/-! DEFINITION. The launch premises of R194, and the invariant of the machine (10_state.md R26, R30; 70_reset_and_hazards.md R194). -/
namespace Sys2Proof

open Sys2Proof.Machine

/-- A step exists (R27). -/
abbrev Running (s : State) : Prop := runState s = .running

/-- CleanEntry: the launch state of R181 item 4 (R194). -/
def CleanEntry (p : LaunchParams) (s : State) : Prop :=
  (∀ i : RegIdx, readReg s i = (p.init[i]).getD 0) ∧ s.carry = false ∧ s.cmp = State.reset.cmp
    ∧ s.pc = 0 ∧ s.fault = false ∧ s.ic = p.ic ∧ s.image = p.image

/-- WellFormedImage: `read_word(i)` succeeds for every i below IC (R194, R49). -/
def WellFormedImage (s : State) : Prop := ∀ i, i < s.ic → (readWord s.image i).isSome

/-- ConstantImage, of one step: image and IC are the same (R194, R53). -/
def ConstantImage (s t : State) : Prop := t.image = s.image ∧ t.ic = s.ic

/-- NoR15Init: `init` does not name R15 (R194, D6). -/
def NoR15Init (init : InitMap) : Prop := init[15] = none

/-- An LSH or RSH about to run has an amount below 64; any other instruction meets it (R194). -/
def shiftBelow64 (i : Instr) (s : State) : Bool :=
  match i with
  | .lsh a | .rsh a => decide ((operand2 a s).toNat < 64)
  | .and _ | .orr _ | .eor _ | .add _ | .adc _ | .cmp _ | .sub _ | .sbc _ | .mov _ => true
  | .nop11 _ | .nop12 _ | .nop13 _ | .nop14 _ | .nop15 _ => true
  | .b _ | .beq _ | .bne _ | .ble _ | .bge _ | .bl _ | .bg _ => true
  | .br1 _ | .br2 _ | .br3 _ | .br4 _ | .br5 _ | .br6 _ | .br7 _ | .br15 _ => true

/-- ShiftsBelow64, of a run from `s`: every executed shift has an amount below 64 (R194). -/
def ShiftsBelow64 (s : State) : Prop :=
  ∀ fuel w, Running (runFor fuel s) → fetchWord (runFor fuel s) = some w →
    shiftBelow64 (decode w) (runFor fuel s) = true

/-- The four patterns of comparison flags a run reaches: the reset pattern and CMP's three outcomes (R30, R141). -/
def cmpLegal (f : CmpFlags) : Bool :=
  (f == { eq := false, ne := false, le := false, ge := false, lt := false, gt := false })
  || (f == { eq := true, ne := false, le := true, ge := true, lt := false, gt := false })
  || (f == { eq := false, ne := true, le := true, ge := false, lt := true, gt := false })
  || (f == { eq := false, ne := true, le := false, ge := true, lt := false, gt := true })

/-- The invariant: the image is canonical; the comparison flags hold a legal pattern (R30); `pc` is within the
reach of the widest displacement (R26); and a latched fault stands at an index the run was fetching (R163). -/
structure MachineInv (s : State) : Prop where
  imageCanonical : Memory.wf s.image = true
  flagsLegal : cmpLegal s.cmp = true
  pcLow : -(2 ^ magWidth - 1) ≤ s.pc
  pcHigh : s.pc ≤ (s.ic : Int) + 2 ^ magWidth - 2
  faultInside : s.fault = true → 0 ≤ s.pc ∧ s.pc < s.ic

end Sys2Proof
end

