-- ==== Sys2Proof/Certificates/Slice0/Obligations.lean ====
section
/-! DEFINITION. The statements for the provers. Each says which rule or section of spec/ it formalises; where a clause
rests on a decision of the spec or of the model, its docstring names the decision and the log entry. -/

/-! ## What several statements share -/

namespace Sys2Proof.Claims

open Sys2Proof Sys2Proof.Machine

/-- The word EncodeALU gives for an OPCODE value and every value of the other fields is decoded as `mk` (R72). -/
def AluEncoding (opcode : Nat) (mk : AluFields → Instr) : Prop :=
  ∀ a : AluFields, decode (BitVec.ofNat 32 (a.immFlag.toNat * 2 ^ 24 + opcode * 2 ^ 20 + a.src1.val * 2 ^ 16
    + a.src2.val * 2 ^ 12 + a.dest.val * 2 ^ 8 + a.imm.toNat)) = mk a

/-- The word EncodeBranch gives for a BCC value, either sign and every magnitude is decoded as `mk` (R72). -/
def BranchEncoding (bcc : Nat) (mk : BranchFields → Instr) : Prop :=
  ∀ d : BranchFields, d.mag ≤ 2 ^ 27 - 1 →
    decode (BitVec.ofNat 32 (bcc * 2 ^ 28 + d.sign.toNat * 2 ^ 27 + d.mag)) = mk d

/-- The whole next state of an ALU word that writes `v` to its destination and no flag. -/
def wrote (a : AluFields) (v : Word) (s : State) : State :=
  { s with pc := s.pc + 1, regs := s.regs.set a.dest v }

/-- A taken branch's next `pc`, from the branch's own index (R100). -/
def takenPc (d : BranchFields) (pc : Int) : Int := if d.sign = true then pc - d.mag else pc + d.mag

/-- BCC, bits 31 to 28, by its number. -/
def bccOf (w : InstrWord) : Nat := w.toNat / 2 ^ 28

/-- OPCODE, bits 23 to 20, by its number. -/
def opcodeOf (w : InstrWord) : Nat := w.toNat / 2 ^ 20 % 16

/-- SIGN, bit 27, by its number. -/
def signOf (w : InstrWord) : Nat := w.toNat / 2 ^ 27 % 2

/-- OFFSET_MAG, bits 26 to 0, by its number. -/
def magOf (w : InstrWord) : Nat := w.toNat % 2 ^ 27

/-- CondHolds as R109 writes it. -/
def holds (bcc : Nat) (f : CmpFlags) : Bool :=
  if bcc = 9 then f.eq else if bcc = 10 then f.ne else if bcc = 11 then f.le
  else if bcc = 12 then f.ge else if bcc = 13 then f.lt else if bcc = 14 then f.gt else true

/-- A conditional branch (R102 to R107): its encoding; `pc` by its stored flag and nothing else changed; not taken on
the reset pattern of the flags; and directly after a CMP, taken exactly when the unsigned relation `rel` holds. -/
def ConditionalBranch (bcc : Nat) (mk : BranchFields → Instr) (flag : CmpFlags → Bool) (rel : Nat → Nat → Bool) : Prop :=
  BranchEncoding bcc mk
  ∧ (∀ d s, exec (mk d) s = .next { s with pc := if flag s.cmp = true then takenPc d s.pc else s.pc + 1 })
  ∧ (∀ d s, s.cmp = State.reset.cmp → exec (mk d) s = .next { s with pc := s.pc + 1 })
  ∧ (∀ a d s, ∃ t, exec (.cmp a) s = .next t ∧ exec (mk d) t = .next { t with
      pc := if rel (operand1 a s).toNat (operand2 a s).toNat = true then takenPc d t.pc else t.pc + 1 })

/-- A branch that is always taken (R101, R108): its encoding; `pc` moves to the target and nothing else changes. -/
def AlwaysBranch (bcc : Nat) (mk : BranchFields → Instr) : Prop :=
  BranchEncoding bcc mk ∧ ∀ d s, exec (mk d) s = .next { s with pc := takenPc d s.pc }

/-- IC and every byte of the image read as before. -/
def SameImage (s t : State) : Prop := t.ic = s.ic ∧ ∀ x, Memory.read t.image x = Memory.read s.image x

/-- Every register but the destination, every flag, the latch, IC and every byte of the image are unchanged. -/
def DestFrame (mk : AluFields → Instr) : Prop :=
  ∀ a s t, exec (mk a) s = .next t →
    (∀ r, r ≠ a.dest → readReg t r = readReg s r) ∧ t.carry = s.carry ∧ t.cmp = s.cmp
      ∧ t.fault = s.fault ∧ SameImage s t

/-- As `DestFrame`, but the carry may change. -/
def DestCarryFrame (mk : AluFields → Instr) : Prop :=
  ∀ a s t, exec (mk a) s = .next t →
    (∀ r, r ≠ a.dest → readReg t r = readReg s r) ∧ t.cmp = s.cmp ∧ t.fault = s.fault ∧ SameImage s t

/-- Nothing but `pc` changes. -/
def PcOnlyFrame (i : Instr) : Prop :=
  ∀ s t, exec i s = .next t →
    (∀ r, readReg t r = readReg s r) ∧ t.carry = s.carry ∧ t.cmp = s.cmp ∧ t.fault = s.fault ∧ SameImage s t

/-- The two states agree but for the carry. -/
def AgreeButCarry (s t : State) : Prop :=
  t.regs = s.regs ∧ t.cmp = s.cmp ∧ t.pc = s.pc ∧ t.fault = s.fault ∧ t.ic = s.ic ∧ t.image = s.image

/-- The two states agree but for the comparison flags. -/
def AgreeButCmp (s t : State) : Prop :=
  t.regs = s.regs ∧ t.carry = s.carry ∧ t.pc = s.pc ∧ t.fault = s.fault ∧ t.ic = s.ic ∧ t.image = s.image

end Sys2Proof.Claims

open Sys2Proof Sys2Proof.Machine Sys2Proof.Claims

/-! ## Encoding (30_encoding.md) -/

/-- Decoding an encoded well-formed instruction gives it back, every operand at every value (30 section 5). -/
def Obligations.DecodeOfEncode : Prop := ∀ i : Instr, i.wellFormed = true → decode (encode i) = i

/-- R72: the fields of an encoded tuple are the tuple, for every ALU tuple and every branch tuple; the converse for
every branch word and every ALU word whose bits 27 to 25 are 0; and an ALU word with a non-zero bit there re-encodes to
the word with those bits 0, which decodes to the same instruction. -/
def Obligations.FieldTuplesRoundTrip : Prop :=
  (∀ (opcode : Nat) (a : AluFields), opcode ≤ 15 →
    let f := decodeFields (BitVec.ofNat 32 (a.immFlag.toNat * 2 ^ 24 + opcode * 2 ^ 20 + a.src1.val * 2 ^ 16
      + a.src2.val * 2 ^ 12 + a.dest.val * 2 ^ 8 + a.imm.toNat))
    f.bcc = 0 ∧ f.immFlag = a.immFlag ∧ f.opcode.toNat = opcode ∧ f.src1.toNat = a.src1.val
      ∧ f.src2.toNat = a.src2.val ∧ f.dest.toNat = a.dest.val ∧ f.imm = a.imm)
  ∧ (∀ (bcc : Nat) (d : BranchFields), 1 ≤ bcc → bcc ≤ 15 → d.mag ≤ 2 ^ 27 - 1 →
    let f := decodeFields (BitVec.ofNat 32 (bcc * 2 ^ 28 + d.sign.toNat * 2 ^ 27 + d.mag))
    f.bcc.toNat = bcc ∧ f.sign = d.sign ∧ f.mag.toNat = d.mag)
  ∧ (∀ w : InstrWord, bccOf w ≠ 0 → encodeBranch (bccOf w) (decodeFields w).branch = w)
  ∧ (∀ w : InstrWord, bccOf w = 0 → w.toNat / 2 ^ 25 % 8 = 0 → encodeAlu (opcodeOf w) (decodeFields w).alu = w)
  ∧ (∀ w : InstrWord, bccOf w = 0 →
    (encodeAlu (opcodeOf w) (decodeFields w).alu).toNat = w.toNat % 2 ^ 25
      ∧ decode (encodeAlu (opcodeOf w) (decodeFields w).alu) = decode w)

/-- Every word is in exactly one of the opcode table's 31 classes, the one of the instruction it decodes to (30 section 4). -/
def Obligations.EveryWordHasOneRow : Prop :=
  opcodeTable.length = 31 ∧ ∀ w : InstrWord, ∃ r : TableRow,
    opcodeTable.filter (fun q => decide (w &&& q.mask = q.pattern)) = [r] ∧ r.mnemonic = (decode w).mnemonic

/-- Whatever the word, its instruction's fields are in range (30 sections 1 and 5). -/
def Obligations.DecodedIsWellFormed : Prop := ∀ w : InstrWord, (decode w).wellFormed = true

/-- R61: a word is a branch word exactly when its BCC field is not 0, and an ALU word otherwise. -/
def Obligations.BccSelectsFormat : Prop :=
  ∀ w : InstrWord,
    (bccOf w = 0 → ∃ a : AluFields, decode w ∈ [Instr.and a, .orr a, .eor a, .add a, .adc a, .cmp a, .sub a, .sbc a,
      .mov a, .lsh a, .rsh a, .nop11 a, .nop12 a, .nop13 a, .nop14 a, .nop15 a])
    ∧ (bccOf w ≠ 0 → ∃ d : BranchFields, decode w ∈ [Instr.b d, .beq d, .bne d, .ble d, .bge d, .bl d, .bg d,
      .br1 d, .br2 d, .br3 d, .br4 d, .br5 d, .br6 d, .br7 d, .br15 d])

/-- Bits 27 to 25 of an ALU word change nothing (30 section 1; the spec's decision D8, log entry 6). -/
def Obligations.IgnoredBitsOfAluWords : Prop :=
  ∀ w v : InstrWord, bccOf w = 0 → w &&& 0xF1FFFFFF#32 = v &&& 0xF1FFFFFF#32 → decode v = decode w

/-- The fields an instruction does not use have no effect: SRC2 of an immediate form, IMM of a register form, SRC1 of
MOV, DEST of CMP, every field of a no-op (30 section 4; the spec's decision D8, log entry 6). -/
def Obligations.UnusedFieldsHaveNoEffect : Prop :=
  (∀ (a : AluFields) (r : RegIdx) (s : State), a.immFlag = true → operand2 { a with src2 := r } s = operand2 a s)
  ∧ (∀ (a : AluFields) (n : BitVec 8) (s : State), a.immFlag = false → operand2 { a with imm := n } s = operand2 a s)
  ∧ (∀ (a : AluFields) (r : RegIdx) (s : State), exec (.mov { a with src1 := r }) s = exec (.mov a) s)
  ∧ (∀ (a : AluFields) (r : RegIdx) (s : State), exec (.cmp { a with dest := r }) s = exec (.cmp a) s)
  ∧ (∀ (a c : AluFields) (s : State), exec (.nop11 a) s = exec (.nop11 c) s ∧ exec (.nop12 a) s = exec (.nop12 c) s
    ∧ exec (.nop13 a) s = exec (.nop13 c) s ∧ exec (.nop14 a) s = exec (.nop14 c) s ∧ exec (.nop15 a) s = exec (.nop15 c) s)

/-- Words written out from the encoding (30 section 7) decode to the instructions they stand for. -/
def Obligations.WrittenOutWords : Prop :=
  decode 0x01800105#32 = .mov (asmMovImm 1 5) ∧ decode 0x00301200#32 = .add (asmReg 2 0 1)
  ∧ decode 0x00701200#32 = .sbc (asmReg 2 0 1) ∧ decode 0x01510000#32 = .cmp (asmCmpImm 1 0)
  ∧ decode 0x88000001#32 = .b (asmBack 1) ∧ decode 0xA8000003#32 = .bne (asmBack 3)
  ∧ decode 0xE0000002#32 = .bg (asmFwd 2) ∧ decode 0xF7FFFFFF#32 = .br15 (asmFwd 134217727)
  ∧ decode 0x81800105#32 = .b (asmFwd 25166085)

/-! ## The ALU instructions (42 to 46) -/

/-- R65: the immediate is zero-extended, so it is 0 .. 255; and with IMM_FLAG = 0 operand 2 is a register (R82). -/
def Obligations.OperandSelection : Prop :=
  ∀ (a : AluFields) (s : State),
    operand1 a s = s.regs[a.src1]
    ∧ (a.immFlag = true → (operand2 a s).toNat = a.imm.toNat ∧ (operand2 a s).toNat ≤ 255)
    ∧ (a.immFlag = false → operand2 a s = s.regs[a.src2])

/-- R121 AND. -/
def Obligations.AndResult : Prop :=
  AluEncoding 0 .and ∧ ∀ a s, exec (.and a) s = .next (wrote a (operand1 a s &&& operand2 a s) s)

/-- R122 ORR. -/
def Obligations.OrrResult : Prop :=
  AluEncoding 1 .orr ∧ ∀ a s, exec (.orr a) s = .next (wrote a (operand1 a s ||| operand2 a s) s)

/-- R123 EOR. -/
def Obligations.EorResult : Prop :=
  AluEncoding 2 .eor ∧ ∀ a s, exec (.eor a) s = .next (wrote a (operand1 a s ^^^ operand2 a s) s)

/-- R124 MOV. -/
def Obligations.MovResult : Prop :=
  AluEncoding 8 .mov ∧ ∀ a s, exec (.mov a) s = .next (wrote a (operand2 a s) s)

/-- R130 ADD: the sum modulo 2^64, and the carry written to 1 or to 0 by unsigned overflow. -/
def Obligations.AddResult : Prop :=
  AluEncoding 3 .add ∧ ∀ a s, ∃ v : Word,
    v.toNat = ((operand1 a s).toNat + (operand2 a s).toNat) % 2 ^ 64
    ∧ exec (.add a) s = .next { wrote a v s with
        carry := decide ((operand1 a s).toNat + (operand2 a s).toNat ≥ 2 ^ 64) }

/-- R131 ADC: the sum takes the old carry in, and the new carry leaves it out of the test. -/
def Obligations.AdcResult : Prop :=
  AluEncoding 4 .adc ∧ ∀ a s, ∃ v : Word,
    v.toNat = ((operand1 a s).toNat + (operand2 a s).toNat + s.carry.toNat) % 2 ^ 64
    ∧ exec (.adc a) s = .next { wrote a v s with
        carry := decide ((operand1 a s).toNat + (operand2 a s).toNat ≥ 2 ^ 64) }

/-- R132 SUB: the difference modulo 2^64; no flag. -/
def Obligations.SubResult : Prop :=
  AluEncoding 6 .sub ∧ ∀ a s, ∃ v : Word,
    (v.toNat : Int) = ((operand1 a s).toNat - (operand2 a s).toNat : Int) % 2 ^ 64
    ∧ exec (.sub a) s = .next (wrote a v s)

/-- R133 SBC: op1 - op2 + carry - 1 modulo 2^64; the carry is read and kept. -/
def Obligations.SbcResult : Prop :=
  AluEncoding 7 .sbc ∧ ∀ a s, ∃ v : Word,
    (v.toNat : Int) = ((operand1 a s).toNat - (operand2 a s).toNat + s.carry.toNat - 1 : Int) % 2 ^ 64
    ∧ exec (.sbc a) s = .next (wrote a v s)

/-- R140 CMP: all six flags by the unsigned relations; no register and not the carry, whatever DEST holds. -/
def Obligations.CmpResult : Prop :=
  AluEncoding 5 .cmp ∧ ∀ a s, exec (.cmp a) s = .next { s with
    pc := s.pc + 1
    cmp := { eq := decide (operand1 a s = operand2 a s)
             ne := decide (operand1 a s ≠ operand2 a s)
             lt := decide ((operand1 a s).toNat < (operand2 a s).toNat)
             gt := decide ((operand1 a s).toNat > (operand2 a s).toNat)
             le := decide ((operand1 a s).toNat ≤ (operand2 a s).toNat)
             ge := decide ((operand1 a s).toNat ≥ (operand2 a s).toNat) } }

/-- LSH (45): (op1 x 2^op2) mod 2^64 for an amount below 64; 0 for a larger one, by the spec's decision D4 (log entry 2). -/
def Obligations.LshResult : Prop :=
  AluEncoding 9 .lsh ∧ ∀ a s, ∃ v : Word,
    v.toNat = (if (operand2 a s).toNat < 64
      then (operand1 a s).toNat * 2 ^ (operand2 a s).toNat % 2 ^ 64 else 0)
    ∧ exec (.lsh a) s = .next (wrote a v s)

/-- RSH (45): floor(op1 / 2^op2) for an amount below 64; 0 for a larger one, by the spec's decision D4 (log entry 2). -/
def Obligations.RshResult : Prop :=
  AluEncoding 10 .rsh ∧ ∀ a s, ∃ v : Word,
    v.toNat = (if (operand2 a s).toNat < 64 then (operand1 a s).toNat / 2 ^ (operand2 a s).toNat else 0)
    ∧ exec (.rsh a) s = .next (wrote a v s)

/-- R150 NOP11 to NOP15: `pc` advances and nothing else changes. -/
def Obligations.NopResult : Prop :=
  AluEncoding 11 .nop11 ∧ AluEncoding 12 .nop12 ∧ AluEncoding 13 .nop13 ∧ AluEncoding 14 .nop14 ∧ AluEncoding 15 .nop15
  ∧ ∀ (a : AluFields) (s : State),
    exec (.nop11 a) s = .next { s with pc := s.pc + 1 } ∧ exec (.nop12 a) s = .next { s with pc := s.pc + 1 }
    ∧ exec (.nop13 a) s = .next { s with pc := s.pc + 1 } ∧ exec (.nop14 a) s = .next { s with pc := s.pc + 1 }
    ∧ exec (.nop15 a) s = .next { s with pc := s.pc + 1 }

/-- ADC's new carry differs from a full adder's in exactly one situation, and with no carry in ADC is ADD (43, the
corner cases of ADC, which the spec derives). -/
def Obligations.AdcCarryAgainstFullAdder : Prop :=
  ∀ (a : AluFields) (s : State), ∃ t, exec (.adc a) s = .next t
    ∧ (t.carry ≠ decide (2 ^ 64 ≤ (operand1 a s).toNat + (operand2 a s).toNat + s.carry.toNat) ↔
        s.carry = true ∧ (operand1 a s).toNat + (operand2 a s).toNat = 2 ^ 64 - 1)
    ∧ (s.carry = false → exec (.adc a) s = exec (.add a) s)

/-- After CMP the flags are one of three patterns, by the relation; the identities among them; and the branches then
taken (44, the three outcomes of CMP, which the spec derives). -/
def Obligations.CmpOutcomes : Prop :=
  ∀ (a : AluFields) (s : State), ∃ t, exec (.cmp a) s = .next t
    ∧ ((operand1 a s = operand2 a s ∧ t.cmp = ⟨true, false, true, true, false, false⟩
          ∧ ∀ c, 9 ≤ c → c ≤ 14 → (holds c t.cmp = true ↔ c = 9 ∨ c = 11 ∨ c = 12))
      ∨ ((operand1 a s).toNat < (operand2 a s).toNat ∧ t.cmp = ⟨false, true, true, false, true, false⟩
          ∧ ∀ c, 9 ≤ c → c ≤ 14 → (holds c t.cmp = true ↔ c = 10 ∨ c = 11 ∨ c = 13))
      ∨ ((operand1 a s).toNat > (operand2 a s).toNat ∧ t.cmp = ⟨false, true, false, true, false, true⟩
          ∧ ∀ c, 9 ≤ c → c ≤ 14 → (holds c t.cmp = true ↔ c = 10 ∨ c = 12 ∨ c = 14)))
    ∧ (t.cmp.eq ^^ (t.cmp.lt ^^ t.cmp.gt)) = true ∧ t.cmp.ne = !t.cmp.eq
    ∧ t.cmp.le = (t.cmp.lt || t.cmp.eq) ∧ t.cmp.ge = (t.cmp.gt || t.cmp.eq)

/-! ## The branch instructions (41) -/

/-- R101 B. -/
def Obligations.BranchAlwaysResult : Prop := AlwaysBranch 8 .b

/-- R102 BEQ. -/
def Obligations.BeqResult : Prop := ConditionalBranch 9 .beq (·.eq) (fun x y => decide (x = y))

/-- R103 BNE. -/
def Obligations.BneResult : Prop := ConditionalBranch 10 .bne (·.ne) (fun x y => decide (x ≠ y))

/-- R104 BLE. -/
def Obligations.BleResult : Prop := ConditionalBranch 11 .ble (·.le) (fun x y => decide (x ≤ y))

/-- R105 BGE. -/
def Obligations.BgeResult : Prop := ConditionalBranch 12 .bge (·.ge) (fun x y => decide (x ≥ y))

/-- R106 BL: less, not link. -/
def Obligations.BlResult : Prop := ConditionalBranch 13 .bl (·.lt) (fun x y => decide (x < y))

/-- R107 BG. -/
def Obligations.BgResult : Prop := ConditionalBranch 14 .bg (·.gt) (fun x y => decide (x > y))

/-- R108 BR1 to BR7 and BR15: the reserved codes, executed as B. -/
def Obligations.ReservedBranchResult : Prop :=
  AlwaysBranch 1 .br1 ∧ AlwaysBranch 2 .br2 ∧ AlwaysBranch 3 .br3 ∧ AlwaysBranch 4 .br4 ∧ AlwaysBranch 5 .br5
  ∧ AlwaysBranch 6 .br6 ∧ AlwaysBranch 7 .br7 ∧ AlwaysBranch 15 .br15

/-- R100 with R109, over words: a word with BCC other than 0 moves `pc` by its SIGN and OFFSET_MAG bits when its code's
condition holds, to the next index otherwise, and changes nothing else; any other word advances `pc` by 1. -/
def Obligations.BranchWordEffect : Prop :=
  (∀ (w : InstrWord) (s : State), bccOf w ≠ 0 → exec (decode w) s = .next { s with
    pc := if holds (bccOf w) s.cmp = true then (if signOf w = 1 then s.pc - magOf w else s.pc + magOf w) else s.pc + 1 })
  ∧ (∀ (w : InstrWord) (s t : State), bccOf w = 0 → exec (decode w) s = .next t → t.pc = s.pc + 1)

/-! ## What instructions leave unchanged -/

/-- The ALU instructions that write a register and no flag change nothing but their destination and `pc` (10 section 2). -/
def Obligations.RegisterWriteFrames : Prop :=
  DestFrame .and ∧ DestFrame .orr ∧ DestFrame .eor ∧ DestFrame .sub ∧ DestFrame .sbc ∧ DestFrame .mov
  ∧ DestFrame .lsh ∧ DestFrame .rsh

/-- ADD and ADC change nothing but their destination, the carry and `pc`; CMP changes no register, not the carry,
nothing but the comparison flags and `pc` (10 sections 2 and 4). -/
def Obligations.FlagWriterFrames : Prop :=
  DestCarryFrame .add ∧ DestCarryFrame .adc
  ∧ ∀ a s t, exec (.cmp a) s = .next t →
    (∀ r, readReg t r = readReg s r) ∧ t.carry = s.carry ∧ t.fault = s.fault ∧ SameImage s t

/-- No-ops and branches change nothing but `pc` (10 section 2; 41 section 1; 46). -/
def Obligations.PcOnlyFrames : Prop :=
  (∀ a, PcOnlyFrame (.nop11 a) ∧ PcOnlyFrame (.nop12 a) ∧ PcOnlyFrame (.nop13 a) ∧ PcOnlyFrame (.nop14 a) ∧ PcOnlyFrame (.nop15 a))
  ∧ (∀ d, PcOnlyFrame (.b d) ∧ PcOnlyFrame (.beq d) ∧ PcOnlyFrame (.bne d) ∧ PcOnlyFrame (.ble d) ∧ PcOnlyFrame (.bge d)
    ∧ PcOnlyFrame (.bl d) ∧ PcOnlyFrame (.bg d))
  ∧ (∀ d, PcOnlyFrame (.br1 d) ∧ PcOnlyFrame (.br2 d) ∧ PcOnlyFrame (.br3 d) ∧ PcOnlyFrame (.br4 d) ∧ PcOnlyFrame (.br5 d)
    ∧ PcOnlyFrame (.br6 d) ∧ PcOnlyFrame (.br7 d) ∧ PcOnlyFrame (.br15 d))

/-- A step changes the carry only by running ADD or ADC (10 section 4). -/
def Obligations.OnlyAdditionsWriteCarry : Prop :=
  ∀ s t, step s = .next t → t.carry ≠ s.carry →
    ∃ w a, fetchWord s = some w ∧ (decode w = .add a ∨ decode w = .adc a)

/-- A step changes a comparison flag only by running CMP (10 section 4; 44). -/
def Obligations.OnlyCmpWritesComparisonFlags : Prop :=
  ∀ s t, step s = .next t → t.cmp ≠ s.cmp → ∃ w a, fetchWord s = some w ∧ decode w = .cmp a

/-- A step changes a register only when it is the DEST field of an ALU word with OPCODE 0 to 10 other than CMP's 5
(10 section 2). -/
def Obligations.OnlyDestinationsAreWritten : Prop :=
  ∀ s t (r : RegIdx), step s = .next t → readReg t r ≠ readReg s r →
    ∃ w, fetchWord s = some w ∧ bccOf w = 0 ∧ opcodeOf w ≤ 10 ∧ opcodeOf w ≠ 5 ∧ w.toNat / 2 ^ 8 % 16 = r.val

/-- Only ADC and SBC read the carry: any other instruction, run from states that differ in the carry alone, completes
with states that differ in the carry at most (43 section 2). -/
def Obligations.CarryIsReadOnlyByAdcAndSbc : Prop :=
  ∀ (i : Instr) (s : State) (c : Bool), (∀ a, i ≠ .adc a) → (∀ a, i ≠ .sbc a) →
    ∃ t u, exec i s = .next t ∧ exec i { s with carry := c } = .next u ∧ AgreeButCarry t u

/-- Only branches read the comparison flags: an ALU word, run from states that differ in them alone, completes with
states that differ in them at most (10 section 4). -/
def Obligations.ComparisonFlagsAreReadOnlyByBranches : Prop :=
  ∀ (w : InstrWord) (s : State) (f : CmpFlags), bccOf w = 0 →
    ∃ t u, exec (decode w) s = .next t ∧ exec (decode w) { s with cmp := f } = .next u ∧ AgreeButCmp t u

/-! ## The step (10 section 3; 20 section 2; 40; 60 section 1) -/

/-- In RUNNING, with four bytes at offset 4 x pc, a step is the meaning of the instruction their big-endian word decodes
to, and adds nothing to it (40 section 1; 20 sections 1 and 2; log entry 9 for the byte order). -/
def Obligations.StepRunsDecoded : Prop :=
  ∀ (s : State) (b0 b1 b2 b3 : Byte), Running s →
    Memory.read s.image (4 * s.pc.toNat) = some b0 → Memory.read s.image (4 * s.pc.toNat + 1) = some b1 →
    Memory.read s.image (4 * s.pc.toNat + 2) = some b2 → Memory.read s.image (4 * s.pc.toNat + 3) = some b3 →
    ∃ w : InstrWord, w.toNat = b0.toNat * 2 ^ 24 + b1.toNat * 2 ^ 16 + b2.toNat * 2 ^ 8 + b3.toNat
      ∧ (decode w).wellFormed = true ∧ step s = exec (decode w) s

/-- The run state by `fault`, `pc` and IC; in the three terminated states no step exists, which the model says by a named
fault (10 section 3; the spec's decisions D7 and D9, log entries 5 and 7). -/
def Obligations.RunStateAndStops : Prop :=
  ∀ s : State,
    (s.fault = true → runState s = .terminatedFault ∧ step s = .fault .terminatedFault)
    ∧ (s.fault = false → s.pc < 0 → runState s = .terminatedError ∧ step s = .fault .terminatedError)
    ∧ (s.fault = false → 0 ≤ s.pc → s.pc < s.ic → runState s = .running)
    ∧ (s.fault = false → s.pc ≥ s.ic → runState s = .terminatedOk ∧ step s = .fault .terminatedOk)

/-- A failed fetch: the latch is set, nothing else of the step happens, and no step follows (60 section 1; the spec's
decision D7, log entry 5). -/
def Obligations.TruncatedReadStop : Prop :=
  ∀ (s : State) (k : Nat), Running s → k < 4 → Memory.read s.image (4 * s.pc.toNat + k) = none →
    step s = .next { s with fault := true } ∧ runState { s with fault := true } = .terminatedFault
      ∧ terminalCondition { s with fault := true } = some .truncatedRead
      ∧ step { s with fault := true } = .fault .terminatedFault

/-- No instruction traps: in RUNNING every step answers a next state (30 section 4; 60 section 1; under SHIFT_GE64's
default, log entry 2). -/
def Obligations.RunningStepCompletes : Prop := ∀ s, Running s → ∃ t, step s = .next t

/-- R162: `pc` becomes negative exactly by a taken backward branch whose magnitude exceeds it; the step completes, the run
state is TERMINATED_ERROR, and nothing but `pc` has changed. -/
def Obligations.NegativePcOnlyByBackwardBranch : Prop :=
  ∀ s t, Running s → step s = .next t →
    (t.pc < 0 ↔ ∃ w, fetchWord s = some w ∧ bccOf w ≠ 0 ∧ holds (bccOf w) s.cmp = true ∧ signOf w = 1
      ∧ (magOf w : Int) > s.pc)
    ∧ (∀ w, t.pc < 0 → fetchWord s = some w → t = { s with pc := s.pc - magOf w })
    ∧ (t.pc < 0 → runState t = .terminatedError ∧ terminalCondition t = some .negativeProgramCounter)

/-- The step, through decoding and the meanings, is the spec's summary of the whole step over the word's fields (40
section 2; with the decision D4, log entry 2). -/
def Obligations.StepIsWholeStep : Prop :=
  ∀ (s : State) (w : InstrWord), Running s → fetchWord s = some w → step s = .next (wholeStep w s)

/-- Every step keeps the invariant: a canonical image, legal comparison flags, `pc` within reach, a latched fault at an
index that was being fetched (10 sections 3 and 4, which the spec derives). -/
def Obligations.StepKeepsInvariant : Prop := ∀ s t, MachineInv s → step s = .next t → MachineInv t

/-- The reset state meets the invariant. -/
def Obligations.ResetMeetsInvariant : Prop := MachineInv State.reset

/-- A step changes neither IC nor any byte of the image (20 sections 1 and 3; log entry 8). -/
def Obligations.StepKeepsImage : Prop :=
  ∀ s t, step s = .next t → ConstantImage s t ∧ ∀ x, Memory.read t.image x = Memory.read s.image x

/-- With a well-formed image no step latches a fault, and the image stays well formed (20 section 2). -/
def Obligations.WellFormedImageNeverFaults : Prop :=
  ∀ s t, WellFormedImage s → s.fault = false → step s = .next t → t.fault = false ∧ WellFormedImage t

/-- With IC within its bound, the `pc` after any step fits a PCW-bit two's-complement register (10 section 3; the spec's
decision D2, log entries 1 and 10). -/
def Obligations.PcFitsItsRegister : Prop :=
  ∀ (pcw : Nat) (s t : State), icBound pcw s.ic = true → step s = .next t →
    -(2 ^ (pcw - 1) : Int) ≤ t.pc ∧ t.pc < 2 ^ (pcw - 1)

/-! ## The image (20), reset, launch and the result (70; 60 section 5) -/

/-- A placed word is read back at its index, and no other index reads differently (20 section 1). -/
def Obligations.PlacedWordIsRead : Prop :=
  ∀ (m : Memory) (i j : Nat) (w : InstrWord),
    readWord (Memory.placeWord m i w) j = if j = i then some w else readWord m j

/-- The model's own loading aid: the very next step runs the placed instruction (log entry 8). -/
def Obligations.PlacedInstructionRuns : Prop :=
  ∀ (s : State) (w : Nat), w < 2 ^ 32 →
    step (s.withFetchWord 32 w) = exec (decode (BitVec.ofNat 32 w)) (s.withFetchWord 32 w)

/-- Reset: every register, flag, `pc` and the latch 0, whatever the state before (10 section 6; the decisions D5 and D7,
log entries 3 and 5); the launch parameters stay until the host sets them (log entry 8). -/
def Obligations.ResetValues : Prop :=
  (∀ r, readReg State.reset r = 0) ∧ State.reset.carry = false
  ∧ State.reset.cmp = ⟨false, false, false, false, false, false⟩ ∧ State.reset.pc = 0 ∧ State.reset.fault = false
  ∧ ∀ s, (∀ r, readReg (applyReset s) r = 0) ∧ (applyReset s).carry = false ∧ (applyReset s).cmp = State.reset.cmp
    ∧ (applyReset s).pc = 0 ∧ (applyReset s).fault = false ∧ (applyReset s).ic = s.ic ∧ (applyReset s).image = s.image

/-- `load_registers` writes exactly the named registers, R15 included, and nothing else (70 section 1; the decisions D6
and D20, log entry 4). -/
def Obligations.LoadRegistersWritesNamed : Prop :=
  ∀ (init : InitMap) (s : State),
    (∀ r : RegIdx, readReg (loadRegisters init s) r = (init[r]).getD (readReg s r))
    ∧ (loadRegisters init s).carry = s.carry ∧ (loadRegisters init s).cmp = s.cmp ∧ (loadRegisters init s).pc = s.pc
    ∧ (loadRegisters init s).fault = s.fault ∧ (loadRegisters init s).ic = s.ic ∧ (loadRegisters init s).image = s.image

/-- A launch is admitted exactly within the bound on IC, and refused by name beyond it (70 section 2; the decision D2, log
entry 10). -/
def Obligations.LaunchWithinBound : Prop :=
  ∀ p : LaunchParams, 1 ≤ p.pcw →
    ((p.ic : Int) ≤ 2 ^ (p.pcw - 1) - 2 ^ 27 → launch p = .next (launchState p))
    ∧ ((p.ic : Int) > 2 ^ (p.pcw - 1) - 2 ^ 27 → launch p = .refused .icBoundViolated)

/-- The state a launch with a canonical image answers is a clean entry and meets the invariant (70 sections 1 and 2). -/
def Obligations.LaunchIsCleanEntry : Prop :=
  ∀ (p : LaunchParams) (s : State), Memory.wf p.image = true → launch p = .next s → CleanEntry p s ∧ MachineInv s

/-- R184: with IC = 0 the launch state is TERMINATED_OK, no step is taken, and the result is the launch registers with
`pc` = 0; with IC > 0 it is RUNNING. -/
def Obligations.EmptyProgram : Prop :=
  ∀ p : LaunchParams,
    (p.ic = 0 → runState (launchState p) = .terminatedOk ∧ (∀ fuel, runFor fuel (launchState p) = launchState p)
      ∧ ∃ r, readResult (launchState p) = some r ∧ r.regs = (launchState p).regs ∧ r.pc = 0 ∧ reportsOk r.condition = true)
    ∧ (p.ic > 0 → runState (launchState p) = .running)

/-- The result is read only when the run has ended; it is the final state, and OK is reported exactly for the normal
end (60 section 5; the decisions D7 and D11, log entries 5 and 12). -/
def Obligations.ResultIsTheFinalState : Prop :=
  ∀ s : State, (readResult s = none ↔ Running s)
    ∧ ∀ r, readResult s = some r → r.regs = s.regs ∧ r.pc = s.pc ∧ r.carry = s.carry ∧ r.cmp = s.cmp ∧ r.fault = s.fault
      ∧ (reportsOk r.condition = true ↔ s.fault = false ∧ s.pc ≥ s.ic)

/-- How a run that starts with no fault latched ends, if it ends: in one of the three terminal conditions, each with its
cause, and with IC and the image as they were; with a well-formed image never by `TruncatedRead` (60 section 1; 40 section
4; 70 section 2; the spec's decision D7 for the latch, log entry 5). -/
def Obligations.HowARunEnds : Prop :=
  ∀ s t, s.fault = false → RunEnds s t →
    t.ic = s.ic ∧ t.image = s.image
    ∧ (t.fault = true → terminalCondition t = some .truncatedRead ∧ 0 ≤ t.pc ∧ t.pc < s.ic
      ∧ readWord s.image t.pc.toNat = none)
    ∧ (t.fault = false → (t.pc < 0 ∧ terminalCondition t = some .negativeProgramCounter)
      ∨ (t.pc ≥ s.ic ∧ terminalCondition t = some .normalEnd))
    ∧ (WellFormedImage s → t.fault = false)
    ∧ (0 ≤ s.pc → t.pc < 0 → ∃ fuel u w, runFor fuel s = u ∧ Running u ∧ fetchWord u = some w ∧ bccOf w ≠ 0
      ∧ holds (bccOf w) u.cmp = true ∧ signOf w = 1 ∧ (magOf w : Int) > u.pc ∧ t = { u with pc := u.pc - magOf w })
end

