-- ==== Sys2Proof/Laws/Decode.lean ====
section
/-! SUPPORT. The fields of an encoded word, and a word's class in the opcode table. -/
namespace Sys2Proof

theorem encodeAlu_toNat {opcode : Nat} (h : opcode < 16) (a : AluFields) :
    (encodeAlu opcode a).toNat = a.immFlag.toNat * 2 ^ 24 + opcode * 2 ^ 20 + a.src1.val * 2 ^ 16
      + a.src2.val * 2 ^ 12 + a.dest.val * 2 ^ 8 + a.imm.toNat := by
  have := a.immFlag.toNat_lt
  have := a.imm.isLt
  simp only [encodeAlu, BitVec.toNat_ofNat]
  omega

theorem encodeBranch_toNat {bcc : Nat} (h : bcc < 16) {d : BranchFields} (hd : d.wellFormed = true) :
    (encodeBranch bcc d).toNat = bcc * 2 ^ 28 + d.sign.toNat * 2 ^ 27 + d.mag := by
  have := d.sign.toNat_lt
  have hm : d.mag < 2 ^ 27 := of_decide_eq_true hd
  simp only [encodeBranch, BitVec.toNat_ofNat]
  omega

theorem extractLsb'_eq_ofNat {w : InstrWord} {start len n : Nat} (h : w.toNat / 2 ^ start % 2 ^ len = n) :
    w.extractLsb' start len = BitVec.ofNat len n := by
  apply BitVec.eq_of_toNat_eq
  rw [BitVec.extractLsb'_toNat, Nat.shiftRight_eq_div_pow, h, BitVec.toNat_ofNat, ← h, Nat.mod_mod]

/-- A field's number is the word's slice (R13). -/
theorem extractLsb'_toNat_eq (w : InstrWord) (start len : Nat) :
    (w.extractLsb' start len).toNat = w.toNat / 2 ^ start % 2 ^ len := by
  rw [BitVec.extractLsb'_toNat, Nat.shiftRight_eq_div_pow]

/-- A single bit by the word's number. -/
theorem getLsbD_eq_decide (w : InstrWord) (i : Nat) : w.getLsbD i = decide (w.toNat / 2 ^ i % 2 = 1) := by
  rw [← BitVec.testBit_toNat, Nat.testBit_eq_decide_div_mod_eq]

/-- A register field as an index. To be cited rather than unfolded: the kernel must not compare encoded words by
unfolding their sums. -/
theorem toFin_eq_of_toNat {n : Nat} {x : BitVec n} {i : Fin (2 ^ n)} (h : x.toNat = i.val) : x.toFin = i := Fin.ext h

/-- `decode` by the two selecting fields and the format's fields. -/
theorem decode_eq (w : InstrWord) :
    decode w = if w.extractLsb' 28 4 = 0 then decodeAlu (w.extractLsb' 20 4) (decodeFields w).alu
      else decodeBranch (w.extractLsb' 28 4) (decodeFields w).branch := rfl

theorem encodeAlu_bcc {opcode : Nat} (h : opcode < 16) (a : AluFields) :
    (encodeAlu opcode a).extractLsb' 28 4 = 0#4 := by
  apply extractLsb'_eq_ofNat
  have := a.immFlag.toNat_lt
  have := a.imm.isLt
  rw [encodeAlu_toNat h]
  omega

theorem encodeAlu_opcode {opcode : Nat} (h : opcode < 16) (a : AluFields) :
    (encodeAlu opcode a).extractLsb' 20 4 = BitVec.ofNat 4 opcode := by
  apply extractLsb'_eq_ofNat
  have := a.immFlag.toNat_lt
  have := a.imm.isLt
  rw [encodeAlu_toNat h]
  omega

theorem encodeBranch_bcc {bcc : Nat} (h : bcc < 16) {d : BranchFields} (hd : d.wellFormed = true) :
    (encodeBranch bcc d).extractLsb' 28 4 = BitVec.ofNat 4 bcc := by
  apply extractLsb'_eq_ofNat
  have := d.sign.toNat_lt
  rw [encodeBranch_toNat h hd]
  have hm : d.mag < 2 ^ 27 := of_decide_eq_true hd
  omega

/-- A word under a branch row's mask is its BCC field in place. -/
theorem and_branchMask (w : InstrWord) :
    w &&& 0xF0000000#32 = (w.extractLsb' 28 4).zeroExtend 32 <<< 28 := by
  have hm : ∀ i, i < 32 → (0xF0000000#32).getLsbD i = decide (28 ≤ i) := by decide
  apply BitVec.eq_of_getLsbD_eq
  intro i hi
  rw [BitVec.getLsbD_and, hm i hi]
  by_cases h : 28 ≤ i
  · have h' : 28 + (i - 28) = i := by omega
    have h4 : i - 28 < 4 := by omega
    simp [h, hi, h4, h', Nat.not_lt.mpr h]
  · simp [h, Nat.lt_of_not_le h]

/-- A word under an ALU row's mask is its BCC and OPCODE fields in place. -/
theorem and_aluMask (w : InstrWord) :
    w &&& 0xF0F00000#32 = (w.extractLsb' 28 4).zeroExtend 32 <<< 28 ||| (w.extractLsb' 20 4).zeroExtend 32 <<< 20 := by
  have hm : ∀ i, i < 32 → (0xF0F00000#32).getLsbD i = (decide (28 ≤ i) || (decide (20 ≤ i) && decide (i < 24))) := by
    decide
  apply BitVec.eq_of_getLsbD_eq
  intro i hi
  rw [BitVec.getLsbD_and, hm i hi]
  by_cases h : 28 ≤ i
  · have h' : 28 + (i - 28) = i := by omega
    have h4 : i - 28 < 4 := by omega
    have h24 : ¬ i - 20 < 4 := by omega
    simp [h, hi, h4, h', h24, Nat.not_lt.mpr h]
  · by_cases h20 : 20 ≤ i
    · have h' : 20 + (i - 20) = i := by omega
      have h4 : i - 20 < 4 ↔ i < 24 := by omega
      have h1 := Nat.lt_of_not_le h
      by_cases hi24 : i < 24 <;> simp [h, h1, hi, h4, hi24, h', Nat.not_lt.mpr h20, h20]
    · have h1 := Nat.lt_of_not_le h
      have h2 := Nat.lt_of_not_le h20
      simp [h, h20, h1, h2]

/-- A well-formed ALU instruction's word is in its row's class. -/
theorem encodeAlu_row {opcode : Nat} (h : opcode < 16) (mnemonic : String) (a : AluFields) :
    encodeAlu opcode a &&& (aluRow mnemonic opcode).mask = (aluRow mnemonic opcode).pattern := by
  have hs : ∀ n, n < 16 → (0#4).zeroExtend 32 <<< 28 ||| (BitVec.ofNat 4 n).zeroExtend 32 <<< 20 = BitVec.ofNat 32 (n * 2 ^ 20) := by
    decide
  show _ &&& 0xF0F00000#32 = BitVec.ofNat 32 (opcode * 2 ^ 20)
  rw [and_aluMask, encodeAlu_bcc h, encodeAlu_opcode h, hs opcode h]

/-- A well-formed branch's word is in its row's class. -/
theorem encodeBranch_row {bcc : Nat} (h : bcc < 16) (mnemonic : String) {d : BranchFields} (hd : d.wellFormed = true) :
    encodeBranch bcc d &&& (branchRow mnemonic bcc).mask = (branchRow mnemonic bcc).pattern := by
  have hs : ∀ n, n < 16 → (BitVec.ofNat 4 n).zeroExtend 32 <<< 28 = BitVec.ofNat 32 (n * 2 ^ 28) := by decide
  show _ &&& 0xF0000000#32 = BitVec.ofNat 32 (bcc * 2 ^ 28)
  rw [and_branchMask, encodeBranch_bcc h hd, hs bcc h]

end Sys2Proof
end

