-- ==== Sys2Proof/Laws/Memory.lean ====
section
/-! SUPPORT. The program image: reading after placing, and the canonical form that every placing keeps. -/
namespace Sys2Proof.Machine

theorem Memory.read_write (m : Memory) (x y : Nat) (v : Byte) :
    Memory.read (Memory.write m x v) y = if x = y then some v else Memory.read m y := by
  induction m with
  | nil => simp [Memory.write, Memory.read]
  | cons c m ih =>
    obtain ⟨a, u⟩ := c
    simp only [Memory.write]
    split
    · simp [Memory.read]
    · split
      · subst x
        by_cases h : a = y <;> simp [Memory.read, h]
      · by_cases h : a = y
        · subst y
          simp_all [Memory.read]
        · simp [Memory.read, h, ih]

@[simp] theorem Memory.read_write_same (m : Memory) (x : Nat) (v : Byte) :
    Memory.read (Memory.write m x v) x = some v := by simp [Memory.read_write]

theorem Memory.wfFrom_mono {low high : Nat} (h : low ≤ high) {m : Memory} (hm : Memory.wfFrom high m = true) :
    Memory.wfFrom low m = true := by
  cases m with
  | nil => rfl
  | cons c m =>
    simp only [Memory.wfFrom, Bool.and_eq_true, decide_eq_true_eq] at hm ⊢
    exact ⟨Nat.le_trans h hm.1, hm.2⟩

theorem Memory.wfFrom_write (m : Memory) (x : Nat) (v : Byte) {low : Nat} (hx : low ≤ x)
    (hm : Memory.wfFrom low m = true) : Memory.wfFrom low (Memory.write m x v) = true := by
  induction m generalizing low with
  | nil => simp [Memory.write, Memory.wfFrom, hx]
  | cons c m ih =>
    obtain ⟨a, u⟩ := c
    simp only [Memory.wfFrom, Bool.and_eq_true, decide_eq_true_eq] at hm
    simp only [Memory.write]
    split
    · rename_i h
      simp only [Memory.wfFrom, Bool.and_eq_true, decide_eq_true_eq]
      exact ⟨hx, h, hm.2⟩
    · split
      · rename_i h
        subst h
        simp [Memory.wfFrom, hx, hm.2]
      · simp only [Memory.wfFrom, Bool.and_eq_true, decide_eq_true_eq]
        exact ⟨hm.1, ih (by omega) hm.2⟩

/-- Placing a byte keeps the canonical form. -/
theorem Memory.wf_write {m : Memory} (hm : Memory.wf m = true) (x : Nat) (v : Byte) :
    Memory.wf (Memory.write m x v) = true := Memory.wfFrom_write m x v (Nat.zero_le x) hm

theorem Memory.wf_writeBytes {m : Memory} (hm : Memory.wf m = true) (x : Nat) (vs : List Byte) :
    Memory.wf (Memory.writeBytes m x vs) = true := by
  induction vs generalizing m x with
  | nil => exact hm
  | cons v vs ih => exact ih (Memory.wf_write hm x v) (x + 1)

theorem Memory.wf_placeWord {m : Memory} (hm : Memory.wf m = true) (i : Nat) (w : InstrWord) :
    Memory.wf (Memory.placeWord m i w) = true := Memory.wf_writeBytes hm _ _

theorem Memory.wf_placeWords {m : Memory} (hm : Memory.wf m = true) (i : Nat) (ws : List InstrWord) :
    Memory.wf (Memory.placeWords m i ws) = true := by
  induction ws generalizing m i with
  | nil => exact hm
  | cons w ws ih => exact ih (Memory.wf_placeWord hm i w) (i + 1)

/-- The image beside the reset values is canonical. -/
theorem State.reset_image_wf : Memory.wf State.reset.image = true := rfl

end Sys2Proof.Machine
end

