-- ==== Sys2Proof/Laws/State.lean ====
section
/-! SUPPORT. What each update of the state leaves of each field. -/
namespace Sys2Proof.Machine

@[simp] theorem writeReg_regs (s : State) (i : RegIdx) (v : Word) : (writeReg s i v).regs = s.regs.set i v := rfl
@[simp] theorem writeReg_carry (s : State) (i : RegIdx) (v : Word) : (writeReg s i v).carry = s.carry := rfl
@[simp] theorem writeReg_cmp (s : State) (i : RegIdx) (v : Word) : (writeReg s i v).cmp = s.cmp := rfl
@[simp] theorem writeReg_pc (s : State) (i : RegIdx) (v : Word) : (writeReg s i v).pc = s.pc := rfl
@[simp] theorem writeReg_fault (s : State) (i : RegIdx) (v : Word) : (writeReg s i v).fault = s.fault := rfl
@[simp] theorem writeReg_ic (s : State) (i : RegIdx) (v : Word) : (writeReg s i v).ic = s.ic := rfl
@[simp] theorem writeReg_image (s : State) (i : RegIdx) (v : Word) : (writeReg s i v).image = s.image := rfl

@[simp] theorem setPc_regs (s : State) (p : Int) : (setPc s p).regs = s.regs := rfl
@[simp] theorem setPc_carry (s : State) (p : Int) : (setPc s p).carry = s.carry := rfl
@[simp] theorem setPc_cmp (s : State) (p : Int) : (setPc s p).cmp = s.cmp := rfl
@[simp] theorem setPc_pc (s : State) (p : Int) : (setPc s p).pc = p := rfl
@[simp] theorem setPc_fault (s : State) (p : Int) : (setPc s p).fault = s.fault := rfl
@[simp] theorem setPc_ic (s : State) (p : Int) : (setPc s p).ic = s.ic := rfl
@[simp] theorem setPc_image (s : State) (p : Int) : (setPc s p).image = s.image := rfl

@[simp] theorem advance_regs (s : State) : (advance s).regs = s.regs := rfl
@[simp] theorem advance_carry (s : State) : (advance s).carry = s.carry := rfl
@[simp] theorem advance_cmp (s : State) : (advance s).cmp = s.cmp := rfl
@[simp] theorem advance_pc (s : State) : (advance s).pc = s.pc + 1 := rfl
@[simp] theorem advance_fault (s : State) : (advance s).fault = s.fault := rfl
@[simp] theorem advance_ic (s : State) : (advance s).ic = s.ic := rfl
@[simp] theorem advance_image (s : State) : (advance s).image = s.image := rfl

@[simp] theorem setCarry_regs (s : State) (b : Bool) : (setCarry s b).regs = s.regs := rfl
@[simp] theorem setCarry_carry (s : State) (b : Bool) : (setCarry s b).carry = b := rfl
@[simp] theorem setCarry_cmp (s : State) (b : Bool) : (setCarry s b).cmp = s.cmp := rfl
@[simp] theorem setCarry_pc (s : State) (b : Bool) : (setCarry s b).pc = s.pc := rfl
@[simp] theorem setCarry_fault (s : State) (b : Bool) : (setCarry s b).fault = s.fault := rfl
@[simp] theorem setCarry_ic (s : State) (b : Bool) : (setCarry s b).ic = s.ic := rfl
@[simp] theorem setCarry_image (s : State) (b : Bool) : (setCarry s b).image = s.image := rfl

@[simp] theorem setCmp_regs (s : State) (f : CmpFlags) : (setCmp s f).regs = s.regs := rfl
@[simp] theorem setCmp_carry (s : State) (f : CmpFlags) : (setCmp s f).carry = s.carry := rfl
@[simp] theorem setCmp_cmp (s : State) (f : CmpFlags) : (setCmp s f).cmp = f := rfl
@[simp] theorem setCmp_pc (s : State) (f : CmpFlags) : (setCmp s f).pc = s.pc := rfl
@[simp] theorem setCmp_fault (s : State) (f : CmpFlags) : (setCmp s f).fault = s.fault := rfl
@[simp] theorem setCmp_ic (s : State) (f : CmpFlags) : (setCmp s f).ic = s.ic := rfl
@[simp] theorem setCmp_image (s : State) (f : CmpFlags) : (setCmp s f).image = s.image := rfl

@[simp] theorem raiseTruncatedRead_regs (s : State) : (raiseTruncatedRead s).regs = s.regs := rfl
@[simp] theorem raiseTruncatedRead_carry (s : State) : (raiseTruncatedRead s).carry = s.carry := rfl
@[simp] theorem raiseTruncatedRead_cmp (s : State) : (raiseTruncatedRead s).cmp = s.cmp := rfl
@[simp] theorem raiseTruncatedRead_pc (s : State) : (raiseTruncatedRead s).pc = s.pc := rfl
@[simp] theorem raiseTruncatedRead_fault (s : State) : (raiseTruncatedRead s).fault = true := rfl
@[simp] theorem raiseTruncatedRead_ic (s : State) : (raiseTruncatedRead s).ic = s.ic := rfl
@[simp] theorem raiseTruncatedRead_image (s : State) : (raiseTruncatedRead s).image = s.image := rfl

theorem readReg_writeReg (s : State) (i j : RegIdx) (v : Word) :
    readReg (writeReg s i v) j = if i = j then v else readReg s j := by
  simp [readReg, Vector.getElem_set, Fin.ext_iff]

@[simp] theorem readReg_writeReg_self (s : State) (i : RegIdx) (v : Word) :
    readReg (writeReg s i v) i = v := by simp [readReg_writeReg]

theorem readReg_writeReg_ne (s : State) {i j : RegIdx} (v : Word) (h : i ≠ j) :
    readReg (writeReg s i v) j = readReg s j := by simp [readReg_writeReg, h]

@[simp] theorem readReg_setPc (s : State) (p : Int) (i : RegIdx) : readReg (setPc s p) i = readReg s i := rfl
@[simp] theorem readReg_advance (s : State) (i : RegIdx) : readReg (advance s) i = readReg s i := rfl
@[simp] theorem readReg_setCarry (s : State) (b : Bool) (i : RegIdx) : readReg (setCarry s b) i = readReg s i := rfl
@[simp] theorem readReg_setCmp (s : State) (f : CmpFlags) (i : RegIdx) : readReg (setCmp s f) i = readReg s i := rfl

/-- Two states with the same registers read the same. -/
theorem readReg_congr {s t : State} (h : t.regs = s.regs) (i : RegIdx) : readReg t i = readReg s i := by
  simp [readReg, h]

end Sys2Proof.Machine
end

