-- ==== Sys2Proof/Laws/Ops.lean ====
section
/-! SUPPORT. What each shared operation can do, said once. -/
namespace Sys2Proof.Machine

/-! ## The ALU's step -/

@[simp] theorem finishAlu_regs (a : AluFields) (v : Word) (s : State) :
    (finishAlu a v s).regs = s.regs.set a.dest v := rfl
@[simp] theorem finishAlu_carry (a : AluFields) (v : Word) (s : State) : (finishAlu a v s).carry = s.carry := rfl
@[simp] theorem finishAlu_cmp (a : AluFields) (v : Word) (s : State) : (finishAlu a v s).cmp = s.cmp := rfl
@[simp] theorem finishAlu_pc (a : AluFields) (v : Word) (s : State) : (finishAlu a v s).pc = s.pc + 1 := rfl
@[simp] theorem finishAlu_fault (a : AluFields) (v : Word) (s : State) : (finishAlu a v s).fault = s.fault := rfl
@[simp] theorem finishAlu_ic (a : AluFields) (v : Word) (s : State) : (finishAlu a v s).ic = s.ic := rfl
@[simp] theorem finishAlu_image (a : AluFields) (v : Word) (s : State) : (finishAlu a v s).image = s.image := rfl

theorem readReg_finishAlu (a : AluFields) (v : Word) (s : State) (j : RegIdx) :
    readReg (finishAlu a v s) j = if a.dest = j then v else readReg s j := by
  simp [finishAlu, readReg_writeReg]

/-! ## Operands -/

theorem operand2_imm {a : AluFields} (h : a.immFlag = true) (s : State) :
    operand2 a s = a.imm.zeroExtend 64 := by simp [operand2, h]

theorem operand2_reg {a : AluFields} (h : a.immFlag = false) (s : State) :
    operand2 a s = readReg s a.src2 := by simp [operand2, h]

/-! ## Results -/

theorem sumWord_toNat (op1 op2 : Word) (cin : Bool) :
    (sumWord op1 op2 cin).toNat = (op1.toNat + op2.toNat + cin.toNat) % 2 ^ 64 := by simp [sumWord]

theorem diffWord_eq_sub (op1 op2 : Word) : diffWord op1 op2 = op1 - op2 := by
  apply BitVec.eq_of_toNat_eq
  simp only [diffWord, BitVec.toNat_ofInt, BitVec.toNat_sub]
  omega

theorem diffCarryWord_eq (op1 op2 : Word) (cin : Bool) :
    diffCarryWord op1 op2 cin = if cin then op1 - op2 else op1 - op2 - 1 := by
  apply BitVec.eq_of_toNat_eq
  cases cin <;> simp [diffCarryWord, BitVec.toNat_ofInt, BitVec.toNat_sub] <;> omega

/-- A shift always has a result under SHIFT_GE64's default: below 64 the shift's own, from 64 on 0. -/
theorem shiftResult_eq (shift : Nat → Word) (amount : Word) :
    shiftResult shift amount = some (if amount.toNat < 64 then shift amount.toNat else 0) := by
  unfold shiftResult shiftGe64
  split <;> rfl

theorem lshWord_eq_shiftLeft (op1 : Word) (n : Nat) : lshWord op1 n = op1 <<< n := by
  apply BitVec.eq_of_toNat_eq
  simp [lshWord, Nat.shiftLeft_eq]

theorem rshWord_eq_ushiftRight (op1 : Word) (n : Nat) : rshWord op1 n = op1 >>> n := by
  apply BitVec.eq_of_toNat_eq
  have h : op1.toNat / 2 ^ n ≤ op1.toNat := Nat.div_le_self _ _
  have h64 := op1.isLt
  simp only [rshWord, BitVec.toNat_ofNat, BitVec.toNat_ushiftRight, Nat.shiftRight_eq_div_pow]
  exact Nat.mod_eq_of_lt (Nat.lt_of_le_of_lt h h64)

/-- What LSH does: it always completes, with the value of `shiftResult_eq`. -/
theorem execLsh_eq (a : AluFields) (s : State) :
    execLsh a s = .next (finishAlu a (if (operand2 a s).toNat < 64
      then lshWord (operand1 a s) (operand2 a s).toNat else 0) s) := by
  simp [execLsh, finishShift, shiftResult_eq]

/-- What RSH does: it always completes, with the value of `shiftResult_eq`. -/
theorem execRsh_eq (a : AluFields) (s : State) :
    execRsh a s = .next (finishAlu a (if (operand2 a s).toNat < 64
      then rshWord (operand1 a s) (operand2 a s).toNat else 0) s) := by
  simp [execRsh, finishShift, shiftResult_eq]

/-! ## Branches -/

/-- A branch changes `pc` and nothing else. -/
theorem branchStep_eq (bcc : Nat) (d : BranchFields) (s : State) :
    branchStep bcc d s = setPc s (if condHolds bcc s.cmp then branchTarget d s.pc else s.pc + 1) := by
  unfold branchStep advance
  split <;> rfl

@[simp] theorem branchStep_regs (c : Nat) (d : BranchFields) (s : State) : (branchStep c d s).regs = s.regs := by
  simp [branchStep_eq]
@[simp] theorem branchStep_carry (c : Nat) (d : BranchFields) (s : State) : (branchStep c d s).carry = s.carry := by
  simp [branchStep_eq]
@[simp] theorem branchStep_cmp (c : Nat) (d : BranchFields) (s : State) : (branchStep c d s).cmp = s.cmp := by
  simp [branchStep_eq]
@[simp] theorem branchStep_fault (c : Nat) (d : BranchFields) (s : State) : (branchStep c d s).fault = s.fault := by
  simp [branchStep_eq]
@[simp] theorem branchStep_ic (c : Nat) (d : BranchFields) (s : State) : (branchStep c d s).ic = s.ic := by
  simp [branchStep_eq]
@[simp] theorem branchStep_image (c : Nat) (d : BranchFields) (s : State) : (branchStep c d s).image = s.image := by
  simp [branchStep_eq]
theorem branchStep_pc (c : Nat) (d : BranchFields) (s : State) :
    (branchStep c d s).pc = if condHolds c s.cmp then branchTarget d s.pc else s.pc + 1 := by
  simp [branchStep_eq]

/-! ## The run state and the step -/

theorem runState_running_iff (s : State) :
    runState s = .running ↔ s.fault = false ∧ 0 ≤ s.pc ∧ s.pc < s.ic := by
  unfold runState runStateOf
  cases s.fault <;> simp
  split
  · simp; omega
  · split <;> simp <;> omega

/-- All a step can do: it exists only in RUNNING, and it latches the failed fetch or runs the decoded word. -/
theorem step_cases {s t : State} (h : step s = .next t) :
    runState s = .running ∧
      ((fetchWord s = none ∧ t = raiseTruncatedRead s) ∨ (∃ w, fetchWord s = some w ∧ exec (decode w) s = .next t)) := by
  unfold step at h
  split at h <;> try cases h
  rename_i hr
  refine ⟨hr, ?_⟩
  split at h
  · rename_i w hw
    exact .inr ⟨w, hw, h⟩
  · rename_i hw
    cases h
    exact .inl ⟨hw, rfl⟩

/-- A step in RUNNING whose fetch answers is the meaning of the decoded word. -/
theorem step_fetched {s : State} {w : InstrWord} (hr : runState s = .running) (hw : fetchWord s = some w) :
    step s = exec (decode w) s := by simp [step, hr, hw]

end Sys2Proof.Machine
end

