-- ==== Sys2Proof/Laws/PerInstr.lean ====
section
/-! SUPPORT. The family RowMatch: every well-formed instruction's word is in the class of its own row of the opcode
table (30_encoding.md R70). -/
namespace Sys2Proof.Laws

/-- Some row of the opcode table carries the instruction's mnemonic and its word. -/
def RowMatch.Statement (i : Instr) : Prop :=
  i.wellFormed = true → ∃ r ∈ opcodeTable, r.mnemonic = i.mnemonic ∧ encode i &&& r.mask = r.pattern

theorem rowMatch_alu {opcode : Nat} {i : Instr} {a : AluFields} (h : opcode < 16) (hi : encode i = encodeAlu opcode a)
    (hr : aluRow i.mnemonic opcode ∈ opcodeTable) : RowMatch.Statement i :=
  fun _ => ⟨_, hr, rfl, hi ▸ encodeAlu_row h _ a⟩

theorem rowMatch_branch {bcc : Nat} {i : Instr} {d : BranchFields} (h : bcc < 16) (hi : encode i = encodeBranch bcc d)
    (hd : i.wellFormed = d.wellFormed) (hr : branchRow i.mnemonic bcc ∈ opcodeTable) : RowMatch.Statement i :=
  fun hw => ⟨_, hr, rfl, hi ▸ encodeBranch_row h _ (hd ▸ hw)⟩

theorem RowMatch.and (a : AluFields) : RowMatch.Statement (.and a) := rowMatch_alu (opcode := 0) (by decide) rfl (List.elem_iff.mp rfl)
theorem RowMatch.orr (a : AluFields) : RowMatch.Statement (.orr a) := rowMatch_alu (opcode := 1) (by decide) rfl (List.elem_iff.mp rfl)
theorem RowMatch.eor (a : AluFields) : RowMatch.Statement (.eor a) := rowMatch_alu (opcode := 2) (by decide) rfl (List.elem_iff.mp rfl)
theorem RowMatch.add (a : AluFields) : RowMatch.Statement (.add a) := rowMatch_alu (opcode := 3) (by decide) rfl (List.elem_iff.mp rfl)
theorem RowMatch.adc (a : AluFields) : RowMatch.Statement (.adc a) := rowMatch_alu (opcode := 4) (by decide) rfl (List.elem_iff.mp rfl)
theorem RowMatch.cmp (a : AluFields) : RowMatch.Statement (.cmp a) := rowMatch_alu (opcode := 5) (by decide) rfl (List.elem_iff.mp rfl)
theorem RowMatch.sub (a : AluFields) : RowMatch.Statement (.sub a) := rowMatch_alu (opcode := 6) (by decide) rfl (List.elem_iff.mp rfl)
theorem RowMatch.sbc (a : AluFields) : RowMatch.Statement (.sbc a) := rowMatch_alu (opcode := 7) (by decide) rfl (List.elem_iff.mp rfl)
theorem RowMatch.mov (a : AluFields) : RowMatch.Statement (.mov a) := rowMatch_alu (opcode := 8) (by decide) rfl (List.elem_iff.mp rfl)
theorem RowMatch.lsh (a : AluFields) : RowMatch.Statement (.lsh a) := rowMatch_alu (opcode := 9) (by decide) rfl (List.elem_iff.mp rfl)
theorem RowMatch.rsh (a : AluFields) : RowMatch.Statement (.rsh a) := rowMatch_alu (opcode := 10) (by decide) rfl (List.elem_iff.mp rfl)
theorem RowMatch.nop11 (a : AluFields) : RowMatch.Statement (.nop11 a) := rowMatch_alu (opcode := 11) (by decide) rfl (List.elem_iff.mp rfl)
theorem RowMatch.nop12 (a : AluFields) : RowMatch.Statement (.nop12 a) := rowMatch_alu (opcode := 12) (by decide) rfl (List.elem_iff.mp rfl)
theorem RowMatch.nop13 (a : AluFields) : RowMatch.Statement (.nop13 a) := rowMatch_alu (opcode := 13) (by decide) rfl (List.elem_iff.mp rfl)
theorem RowMatch.nop14 (a : AluFields) : RowMatch.Statement (.nop14 a) := rowMatch_alu (opcode := 14) (by decide) rfl (List.elem_iff.mp rfl)
theorem RowMatch.nop15 (a : AluFields) : RowMatch.Statement (.nop15 a) := rowMatch_alu (opcode := 15) (by decide) rfl (List.elem_iff.mp rfl)
theorem RowMatch.b (d : BranchFields) : RowMatch.Statement (.b d) := rowMatch_branch (bcc := 8) (by decide) rfl rfl (List.elem_iff.mp rfl)
theorem RowMatch.beq (d : BranchFields) : RowMatch.Statement (.beq d) := rowMatch_branch (bcc := 9) (by decide) rfl rfl (List.elem_iff.mp rfl)
theorem RowMatch.bne (d : BranchFields) : RowMatch.Statement (.bne d) := rowMatch_branch (bcc := 10) (by decide) rfl rfl (List.elem_iff.mp rfl)
theorem RowMatch.ble (d : BranchFields) : RowMatch.Statement (.ble d) := rowMatch_branch (bcc := 11) (by decide) rfl rfl (List.elem_iff.mp rfl)
theorem RowMatch.bge (d : BranchFields) : RowMatch.Statement (.bge d) := rowMatch_branch (bcc := 12) (by decide) rfl rfl (List.elem_iff.mp rfl)
theorem RowMatch.bl (d : BranchFields) : RowMatch.Statement (.bl d) := rowMatch_branch (bcc := 13) (by decide) rfl rfl (List.elem_iff.mp rfl)
theorem RowMatch.bg (d : BranchFields) : RowMatch.Statement (.bg d) := rowMatch_branch (bcc := 14) (by decide) rfl rfl (List.elem_iff.mp rfl)
theorem RowMatch.br1 (d : BranchFields) : RowMatch.Statement (.br1 d) := rowMatch_branch (bcc := 1) (by decide) rfl rfl (List.elem_iff.mp rfl)
theorem RowMatch.br2 (d : BranchFields) : RowMatch.Statement (.br2 d) := rowMatch_branch (bcc := 2) (by decide) rfl rfl (List.elem_iff.mp rfl)
theorem RowMatch.br3 (d : BranchFields) : RowMatch.Statement (.br3 d) := rowMatch_branch (bcc := 3) (by decide) rfl rfl (List.elem_iff.mp rfl)
theorem RowMatch.br4 (d : BranchFields) : RowMatch.Statement (.br4 d) := rowMatch_branch (bcc := 4) (by decide) rfl rfl (List.elem_iff.mp rfl)
theorem RowMatch.br5 (d : BranchFields) : RowMatch.Statement (.br5 d) := rowMatch_branch (bcc := 5) (by decide) rfl rfl (List.elem_iff.mp rfl)
theorem RowMatch.br6 (d : BranchFields) : RowMatch.Statement (.br6 d) := rowMatch_branch (bcc := 6) (by decide) rfl rfl (List.elem_iff.mp rfl)
theorem RowMatch.br7 (d : BranchFields) : RowMatch.Statement (.br7 d) := rowMatch_branch (bcc := 7) (by decide) rfl rfl (List.elem_iff.mp rfl)
theorem RowMatch.br15 (d : BranchFields) : RowMatch.Statement (.br15 d) := rowMatch_branch (bcc := 15) (by decide) rfl rfl (List.elem_iff.mp rfl)

end Sys2Proof.Laws
end

