-- ==== Sys2Proof/Laws/Run.lean ====
section
/-! SUPPORT. What a run can do, said once: its first step, what it keeps, and its last step. -/
namespace Sys2Proof.Machine

/-- A state that is not RUNNING is its own run. -/
theorem runFor_stopped {s : State} (h : runState s ≠ .running) (fuel : Nat) : runFor fuel s = s := by
  cases fuel with
  | zero => rfl
  | succ fuel => unfold runFor; split <;> first | rfl | exact absurd ‹_› h

/-- A run takes the machine's step and goes on from there. -/
theorem runFor_next {s t : State} (h : step s = .next t) (fuel : Nat) : runFor (fuel + 1) s = runFor fuel t := by
  simp [runFor, (step_cases h).1, h]

/-- All a longer run can do first: stay where it is, or take a step. -/
theorem runFor_succ_cases (fuel : Nat) (s : State) :
    runFor (fuel + 1) s = s ∨ ∃ t, step s = .next t ∧ runFor (fuel + 1) s = runFor fuel t := by
  cases h : step s with
  | next t => exact .inr ⟨t, rfl, runFor_next h fuel⟩
  | fault _ => exact .inl (by unfold runFor; split <;> simp [h])
  | refused _ => exact .inl (by unfold runFor; split <;> simp [h])

/-- What every step keeps, every run keeps. -/
theorem runFor_invariant {P : State → Prop} (keep : ∀ u v, P u → step u = .next v → P v) (fuel : Nat) {s : State}
    (h : P s) : P (runFor fuel s) := by
  induction fuel generalizing s with
  | zero => exact h
  | succ fuel ih =>
    obtain e | ⟨t, ht, e⟩ := runFor_succ_cases fuel s
    · rwa [e]
    · rw [e]
      exact ih (keep s t h ht)

/-- How a run comes to its final state: it had ended already, or its last step, taken from a state of the run, answers it. -/
theorem runEnds_last {s t : State} (h : RunEnds s t) :
    (t = s ∧ runState s ≠ .running) ∨ ∃ fuel, step (runFor fuel s) = .next t := by
  obtain ⟨fuel, rfl, h⟩ := h
  induction fuel generalizing s with
  | zero => exact .inl ⟨rfl, h⟩
  | succ fuel ih =>
    obtain e | ⟨u, hu, e⟩ := runFor_succ_cases fuel s
    · exact .inl ⟨e, by rwa [e] at h⟩
    · rw [e] at h ⊢
      obtain ⟨e', -⟩ | ⟨n, hn⟩ := ih h
      · exact .inr ⟨0, e'.symm ▸ hu⟩
      · exact .inr ⟨n + 1, (runFor_next hu n).symm ▸ hn⟩

end Sys2Proof.Machine
end

