-- ==== Sys2Proof/Tests/Slice0.lean ====
section
/-! SUPPORT. The package's own tests, with the results the spec's vectors give (95_test_vectors.md, 30_encoding.md
section 7), and the witnesses that meet the hypotheses of the statements. -/
namespace Sys2Proof.Tests

open Sys2Proof Sys2Proof.Machine Sys2Proof.Claims

/-! ## Small states -/

/-- A state about to run the one word of its image, with R1, R2 and the carry given. -/
def small (w : InstrWord) (r1 r2 : Word) (c : Bool) : State :=
  writeReg (writeReg { State.reset with ic := 1, image := Memory.placeWord [] 0 w, carry := c } 1 r1) 2 r2

/-- The comparison flags after CMP of equal, of smaller and of larger (95, family branches). -/
def equalFlags : CmpFlags := ⟨true, false, true, true, false, false⟩
def lessFlags : CmpFlags := ⟨false, true, true, false, true, false⟩
def greaterFlags : CmpFlags := ⟨false, true, false, true, false, true⟩

/-- A state at index 10 of 20 about to run `w` (95, family branches). -/
def atTen (w : InstrWord) (f : CmpFlags) : State :=
  { State.reset with pc := 10, ic := 20, image := Memory.placeWord [] 10 w, cmp := f }

/-- The next state, if the outcome is one. -/
def nextOf : Host.Outcome State Fault Refusal → Option State
  | .next s => some s
  | .fault _ => none
  | .refused _ => none

/-- R3 after one step. -/
def r3 (s : State) : Option Word := (nextOf (step s)).map (readReg · 3)

/-- R3 and the carry after one step. -/
def r3c (s : State) : Option (Word × Bool) := (nextOf (step s)).map fun t => (readReg t 3, t.carry)

/-- The index after one step. -/
def pcAfter (s : State) : Option Int := (nextOf (step s)).map (·.pc)

/-- The comparison flags after one step. -/
def cmpAfter (s : State) : Option CmpFlags := (nextOf (step s)).map (·.cmp)

/-! ## Well-formedness -/

theorem test_ill_formed_magnitude_refused :
    [Instr.b (asmFwd (2 ^ 27)), .beq (asmFwd (2 ^ 27)), .bne (asmFwd (2 ^ 27)), .ble (asmFwd (2 ^ 27)),
      .bge (asmFwd (2 ^ 27)), .bl (asmFwd (2 ^ 27)), .bg (asmBack (2 ^ 27)), .br1 (asmFwd (2 ^ 27)),
      .br2 (asmFwd (2 ^ 27)), .br3 (asmFwd (2 ^ 27)), .br4 (asmFwd (2 ^ 27)), .br5 (asmFwd (2 ^ 27)),
      .br6 (asmFwd (2 ^ 27)), .br7 (asmFwd (2 ^ 27)), .br15 (asmBack (2 ^ 27))].all (!·.wellFormed) = true := by decide

theorem test_widest_magnitude_well_formed : (Instr.br15 (asmFwd (2 ^ 27 - 1))).wellFormed = true := by decide

/-! ## Decoding: one written-out word for every constructor -/

theorem test_decode_logic_words :
    decode 0x00012300 = .and (asmReg 3 1 2) ∧ decode 0x00112300 = .orr (asmReg 3 1 2)
    ∧ decode 0x00212300 = .eor (asmReg 3 1 2) ∧ decode 0x00800F00 = .mov (asmMovReg 15 0) := by decide

theorem test_decode_arith_words :
    decode 0x013103FF = .add (asmImm 3 1 255) ∧ decode 0x00412300 = .adc (asmReg 3 1 2)
    ∧ decode 0x01610301 = .sub (asmImm 3 1 1) ∧ decode 0x00712300 = .sbc (asmReg 3 1 2) := by decide

theorem test_decode_compare_and_shift_words :
    decode 0x015100FF = .cmp (asmCmpImm 1 255) ∧ decode 0x01910304 = .lsh (asmImm 3 1 4)
    ∧ decode 0x00A12300 = .rsh (asmReg 3 1 2) := by decide

theorem test_decode_nop_words :
    decode 0x00B00000 = .nop11 asmNop ∧ decode 0x00C00000 = .nop12 asmNop
    ∧ decode 0x01D12755 = .nop13 ⟨true, 1, 2, 7, 0x55⟩ ∧ decode 0x00E00000 = .nop14 asmNop
    ∧ decode 0x01FFFFFF = .nop15 ⟨true, 15, 15, 15, 0xFF⟩ := by decide

theorem test_decode_branch_words :
    decode 0x80000003 = .b (asmFwd 3) ∧ decode 0x98000000 = .beq (asmBack 0) ∧ decode 0xA8000003 = .bne (asmBack 3)
    ∧ decode 0xB0000002 = .ble (asmFwd 2) ∧ decode 0xC0000002 = .bge (asmFwd 2) ∧ decode 0xD8000001 = .bl (asmBack 1)
    ∧ decode 0xE0000002 = .bg (asmFwd 2) := by decide

theorem test_decode_reserved_branch_words :
    decode 0x12345678 = .br1 (asmFwd 36984440) ∧ decode 0x20000001 = .br2 (asmFwd 1)
    ∧ decode 0x30000003 = .br3 (asmFwd 3) ∧ decode 0x48000001 = .br4 (asmBack 1) ∧ decode 0x50000001 = .br5 (asmFwd 1)
    ∧ decode 0x60000001 = .br6 (asmFwd 1) ∧ decode 0x70000002 = .br7 (asmFwd 2)
    ∧ decode 0xFFFFFFFF = .br15 (asmBack 134217727) := by decide

/-- Bits 27 to 25 of an ALU word are ignored (95, family decode; log entry 6). -/
theorem test_decode_ignored_bits : decode 0x0F800105 = .mov (asmMovImm 1 5) := by decide

/-- EncodeALU and EncodeBranch give the spec's words (95, family decode). -/
theorem test_encode_words :
    encode (.mov (asmMovImm 1 5)) = 0x01800105 ∧ encode (.bne (asmBack 3)) = 0xA8000003
    ∧ encode (.br15 (asmBack 0x7FFFFFF)) = 0xFFFFFFFF ∧ encode (.nop15 ⟨true, 15, 15, 15, 255⟩) = 0x01FFFFFF := by decide

/-- Bytes 01 80 01 05 are one word, most significant first; three bytes are none (R42, R49). -/
theorem test_decode_bytes :
    (decodeBytes [0x01, 0x80, 0x01, 0x05, 0x88]).toOption = some (.mov (asmMovImm 1 5), [0x88])
    ∧ (decodeBytes [0x01, 0x80, 0x01]).toOption = none
    ∧ decodeTableWord 32 0x00301200 = some (.add (asmReg 2 0 1)) := by decide

/-! ## ALU vectors -/

theorem test_and : r3 (small 0x00012300 0xF0F0F0F0F0F0F0F0 0xFF00FF00FF00FF00 false) = some 0xF000F000F000F000 := by decide
theorem test_orr : r3 (small 0x00112300 0xF0F0F0F0F0F0F0F0 0xFF00FF00FF00FF00 false) = some 0xFFF0FFF0FFF0FFF0 := by decide
theorem test_eor : r3 (small 0x00212300 0xF0F0F0F0F0F0F0F0 0xFF00FF00FF00FF00 false) = some 0x0FF00FF00FF00FF0 := by decide

/-- The immediate is zero-extended, SRC1 plays no part in MOV, and R1 is written (95, family logic and move). -/
theorem test_mov_ignores_src1 :
    (nextOf (step (small 0x018F0105 7 9 false))).map (readReg · 1) = some 5 := by decide
theorem test_mov_register : r3 (small 0x00802300 1 0xDEADBEEF00000001 false) = some 0xDEADBEEF00000001 := by decide

theorem test_add_clears_carry : r3c (small 0x00312300 1 1 true) = some (2, false) := by decide
theorem test_add_wraps : r3c (small 0x013103FF 0xFFFFFFFFFFFFFF01 0 false) = some (0, true) := by decide
theorem test_adc_carry_policy : r3c (small 0x00412300 0xFFFFFFFFFFFFFFFF 0 true) = some (0, false) := by decide
theorem test_adc_full_wrap :
    r3c (small 0x00412300 0xFFFFFFFFFFFFFFFF 0xFFFFFFFFFFFFFFFF true) = some (0xFFFFFFFFFFFFFFFF, true) := by decide
theorem test_sub_wraps_and_keeps_carry : r3c (small 0x00612300 5 7 true) = some (0xFFFFFFFFFFFFFFFE, true) := by decide
theorem test_sbc_without_carry : r3c (small 0x00712300 5 2 false) = some (2, false) := by decide
theorem test_sbc_from_zero : r3c (small 0x00712300 0 0xFFFFFFFFFFFFFFFF false) = some (0, false) := by decide

theorem test_cmp_unsigned : cmpAfter (small 0x00512000 0xFFFFFFFFFFFFFFFF 1 false) = some greaterFlags := by decide
theorem test_cmp_writes_no_register :
    (nextOf (step (small 0x00512900 1 2 true))).map (fun t => (readReg t 9, t.carry, t.cmp)) = some (0, true, lessFlags) := by decide

theorem test_lsh_63 : r3 (small 0x0191033F 1 0 false) = some 0x8000000000000000 := by decide
theorem test_lsh_whole_amount : r3 (small 0x00912300 1 0x100000001 false) = some 0 := by decide
theorem test_rsh_63 : r3 (small 0x01A1033F 0x8000000000000001 0 false) = some 1 := by decide
theorem test_rsh_64 : r3 (small 0x01A10340 0xFFFFFFFFFFFFFFFF 0 false) = some 0 := by decide

/-- A no-op with every field set changes `pc` alone (95, family no-op). -/
theorem test_nops_change_pc_alone :
    [0x01B12755, 0x01C12755, 0x01D12755, 0x01E12755, 0x01FFFFFF].all (fun w =>
      let s := small (BitVec.ofNat 32 w) 3 4 true
      decide (nextOf (step s) = some { s with pc := 1 })) = true := by decide

/-! ## Branch vectors: one step at index 10 of 20 -/

theorem test_b_backward_past_zero : pcAfter (atTen 0x8800000B State.reset.cmp) = some (-1) := by decide
theorem test_b_widest_forward : pcAfter (atTen 0x87FFFFFF State.reset.cmp) = some 134217737 := by decide
theorem test_beq :
    pcAfter (atTen 0x90000002 equalFlags) = some 12 ∧ pcAfter (atTen 0x90000002 State.reset.cmp) = some 11 := by decide
theorem test_bne :
    pcAfter (atTen 0xA0000002 greaterFlags) = some 12 ∧ pcAfter (atTen 0xA0000002 State.reset.cmp) = some 11 := by decide
theorem test_ble :
    pcAfter (atTen 0xB0000002 equalFlags) = some 12 ∧ pcAfter (atTen 0xB0000002 greaterFlags) = some 11 := by decide
theorem test_bge :
    pcAfter (atTen 0xC0000002 greaterFlags) = some 12 ∧ pcAfter (atTen 0xC0000002 lessFlags) = some 11 := by decide
theorem test_bl :
    pcAfter (atTen 0xD0000002 lessFlags) = some 12 ∧ pcAfter (atTen 0xD0000002 equalFlags) = some 11 := by decide
theorem test_bg :
    pcAfter (atTen 0xE0000002 greaterFlags) = some 12 ∧ pcAfter (atTen 0xE0000002 equalFlags) = some 11 := by decide
theorem test_reserved_branches :
    [0x10000002, 0x20000002, 0x30000002, 0x40000002, 0x50000002, 0x60000002, 0x70000002, 0xF0000002].all (fun w =>
      decide (pcAfter (atTen (BitVec.ofNat 32 w) State.reset.cmp) = some 12)) = true := by decide

/-! ## Fetch, termination, launch -/

/-- A TruncatedRead keeps `pc` and the registers and latches the fault (95, family cycle). -/
theorem test_truncated_read :
    nextOf (step { small 0x01800105 3 4 true with pc := 1, ic := 2 })
      = some { small 0x01800105 3 4 true with pc := 1, ic := 2, fault := true } := by decide

/-- The last instruction completes and the run then ends OK with `pc` = 1 (95, E5). -/
theorem test_one_instruction_program :
    (readResult (runFor 5 (small 0x01800105 0 0 false))).map (fun r => (r.regs[1], r.condition, r.pc))
      = some (5, .normalEnd, 1) := by decide

/-- `load_registers` can name R15 (95, family cycle; log entry 4). -/
theorem test_load_registers_r15 :
    let init : InitMap := (Vector.replicate 16 none).set 15 (some 0xABC)
    readReg (launchState { ic := 1, image := [], init := init }) 15 = 0xABC := by decide

/-- From reset with nothing placed the run is over at once; a placed word runs as the very next step (log entry 8). -/
theorem test_reset_has_no_step : nextOf (step State.reset) = none := by decide
theorem test_placed_word_runs :
    nextOf (step (State.reset.withFetchWord 32 0x01800105))
      = nextOf (exec (.mov (asmMovImm 1 5)) (State.reset.withFetchWord 32 0x01800105)) := by decide
theorem test_placed_word_writes_r1 :
    (nextOf (step (State.reset.withFetchWord 32 0x01800105))).map (fun t => (readReg t 1, t.pc)) = some (5, 1) := by decide

/-! ## Witnesses: the hypotheses of each statement are met -/

/-- DecodeOfEncode, and the encoding clause of every branch statement: both ends of the magnitude. -/
theorem witness_DecodeOfEncode :
    (Instr.b (asmFwd 0)).wellFormed = true ∧ (Instr.bg (asmBack (2 ^ 27 - 1))).wellFormed = true
    ∧ (asmBack (2 ^ 27 - 1)).mag ≤ 2 ^ 27 - 1 := by decide

theorem witness_FieldTuplesRoundTrip :
    (15 ≤ 15) ∧ (1 ≤ 1 ∧ 1 ≤ 15 ∧ (asmFwd (2 ^ 27 - 1)).mag ≤ 2 ^ 27 - 1) ∧ (1 ≤ 15 ∧ 15 ≤ 15)
    ∧ bccOf 0x10000000 ≠ 0 ∧ bccOf 0xFFFFFFFF ≠ 0
    ∧ (bccOf 0x01FFFFFF = 0 ∧ (0x01FFFFFF#32).toNat / 2 ^ 25 % 8 = 0) ∧ bccOf 0x0F800105 = 0 := by decide

theorem witness_BccSelectsFormat : bccOf 0x0FFFFFFF = 0 ∧ bccOf 0x10000000 ≠ 0 := by decide

theorem witness_IgnoredBitsOfAluWords :
    bccOf 0x01800105 = 0 ∧ 0x01800105#32 &&& 0xF1FFFFFF#32 = 0x0F800105#32 &&& 0xF1FFFFFF#32 := by decide

/-- UnusedFieldsHaveNoEffect and OperandSelection: both forms. -/
theorem witness_OperandSelection : (asmImm 1 2 3).immFlag = true ∧ (asmReg 1 2 3).immFlag = false := by decide

/-- CmpOutcomes: both ends of the range of codes. -/
theorem witness_CmpOutcomes : (9 ≤ 9 ∧ 9 ≤ 14) ∧ (9 ≤ 14 ∧ 14 ≤ 14) := by decide

/-- AdcCarryAgainstFullAdder: no carry in; and the one situation on the right of its equivalence. -/
theorem witness_AdcCarryAgainstFullAdder :
    State.reset.carry = false
    ∧ (operand1 (asmReg 3 1 2) (small 0x00412300 0xFFFFFFFFFFFFFFFF 0 true)).toNat
      + (operand2 (asmReg 3 1 2) (small 0x00412300 0xFFFFFFFFFFFFFFFF 0 true)).toNat = 2 ^ 64 - 1 := by decide

/-- The conditional branches: a state with the reset pattern of the flags. -/
theorem witness_ConditionalBranch : (small 0x90000002 1 2 true).cmp = State.reset.cmp := by decide

/-- BranchWordEffect and ComparisonFlagsAreReadOnlyByBranches: words of both formats, the ALU word completing. -/
theorem witness_BranchWordEffect :
    bccOf 0x98000003 ≠ 0 ∧ bccOf 0x00312300 = 0 ∧ ∃ t, exec (decode 0x00312300) State.reset = .next t :=
  ⟨by decide, by decide, _, rfl⟩

/-- RegisterWriteFrames: each instruction completes, and a register is not the destination. -/
theorem witness_RegisterWriteFrames (a : AluFields) (s : State) :
    (∃ t, exec (.and a) s = .next t) ∧ (∃ t, exec (.orr a) s = .next t) ∧ (∃ t, exec (.eor a) s = .next t)
    ∧ (∃ t, exec (.sub a) s = .next t) ∧ (∃ t, exec (.sbc a) s = .next t) ∧ (∃ t, exec (.mov a) s = .next t)
    ∧ (∃ t, exec (.lsh a) s = .next t) ∧ (∃ t, exec (.rsh a) s = .next t) ∧ (0 : RegIdx) ≠ (asmReg 3 1 2).dest :=
  ⟨⟨_, rfl⟩, ⟨_, rfl⟩, ⟨_, rfl⟩, ⟨_, rfl⟩, ⟨_, rfl⟩, ⟨_, rfl⟩, ⟨_, execLsh_eq a s⟩, ⟨_, execRsh_eq a s⟩, by decide⟩

theorem witness_FlagWriterFrames (a : AluFields) (s : State) :
    (∃ t, exec (.add a) s = .next t) ∧ (∃ t, exec (.adc a) s = .next t) ∧ (∃ t, exec (.cmp a) s = .next t) :=
  ⟨⟨_, rfl⟩, ⟨_, rfl⟩, ⟨_, rfl⟩⟩

theorem witness_PcOnlyFrames (a : AluFields) (d : BranchFields) (s : State) :
    [Instr.nop11 a, .nop12 a, .nop13 a, .nop14 a, .nop15 a, .b d, .beq d, .bne d, .ble d, .bge d, .bl d, .bg d,
      .br1 d, .br2 d, .br3 d, .br4 d, .br5 d, .br6 d, .br7 d, .br15 d].all (fun i => (nextOf (exec i s)).isSome) = true := rfl

theorem witness_OnlyAdditionsWriteCarry :
    ∃ t, step (small 0x00312300 0xFFFFFFFFFFFFFFFF 1 false) = .next t
      ∧ t.carry ≠ (small 0x00312300 0xFFFFFFFFFFFFFFFF 1 false).carry := ⟨_, rfl, by decide⟩

theorem witness_OnlyCmpWritesComparisonFlags :
    ∃ t, step (small 0x00512000 1 2 false) = .next t ∧ t.cmp ≠ (small 0x00512000 1 2 false).cmp := ⟨_, rfl, by decide⟩

theorem witness_OnlyDestinationsAreWritten :
    ∃ t, step (small 0x01800105 0 0 false) = .next t ∧ readReg t 1 ≠ readReg (small 0x01800105 0 0 false) 1 :=
  ⟨_, rfl, by decide⟩

theorem witness_CarryIsReadOnlyByAdcAndSbc :
    (∀ a, Instr.add (asmReg 3 1 2) ≠ .adc a) ∧ (∀ a, Instr.add (asmReg 3 1 2) ≠ .sbc a) :=
  ⟨nofun, nofun⟩

/-- StepRunsDecoded and RunningStepCompletes: a RUNNING state with the four bytes 01 80 01 05 at its index. -/
theorem witness_StepRunsDecoded :
    Running (small 0x01800105 0 0 false)
    ∧ Memory.read (small 0x01800105 0 0 false).image (4 * (small 0x01800105 0 0 false).pc.toNat) = some 0x01
    ∧ Memory.read (small 0x01800105 0 0 false).image (4 * (small 0x01800105 0 0 false).pc.toNat + 1) = some 0x80
    ∧ Memory.read (small 0x01800105 0 0 false).image (4 * (small 0x01800105 0 0 false).pc.toNat + 2) = some 0x01
    ∧ Memory.read (small 0x01800105 0 0 false).image (4 * (small 0x01800105 0 0 false).pc.toNat + 3) = some 0x05 := by decide

/-- RunStateAndStops: each of its four clauses, at the values where they meet. -/
theorem witness_RunStateAndStops :
    { State.reset with fault := true }.fault = true
    ∧ (State.reset.fault = false ∧ { State.reset with pc := -1 }.pc < 0)
    ∧ (0 ≤ { State.reset with ic := 1 }.pc ∧ { State.reset with ic := 1 }.pc < ({ State.reset with ic := 1 }.ic : Int))
    ∧ State.reset.pc ≥ (State.reset.ic : Int) := by decide

/-- TruncatedReadStop: an image that ends one byte, and one that ends four bytes, short. -/
theorem witness_TruncatedReadStop :
    (Running { State.reset with ic := 1 } ∧ Memory.read ({ State.reset with ic := 1 } : State).image (4 * 0 + 0) = none)
    ∧ (Running { State.reset with ic := 1, image := Memory.writeBytes [] 0 [1, 2, 3] }
      ∧ Memory.read (Memory.writeBytes [] 0 [1, 2, 3]) (4 * 0 + 3) = none) := by decide

theorem witness_NegativePcOnlyByBackwardBranch :
    Running (small 0x88000001 0 0 false) ∧ fetchWord (small 0x88000001 0 0 false) = some 0x88000001
    ∧ ∃ t, step (small 0x88000001 0 0 false) = .next t ∧ t.pc < 0 :=
  ⟨by decide, by decide, _, rfl, by decide⟩

theorem witness_StepIsWholeStep :
    Running (small 0x00312300 1 2 false) ∧ fetchWord (small 0x00312300 1 2 false) = some 0x00312300 := by decide

/-- StepKeepsInvariant and StepKeepsImage: a state that meets the invariant and has a step. -/
theorem witness_StepKeepsInvariant :
    MachineInv (small 0x00512000 1 2 true) ∧ ∃ t, step (small 0x00512000 1 2 true) = .next t :=
  ⟨⟨by decide, by decide, by decide, by decide, by decide⟩, _, rfl⟩

theorem witness_WellFormedImageNeverFaults :
    WellFormedImage (small 0x00512000 1 2 true) ∧ (small 0x00512000 1 2 true).fault = false
    ∧ ∃ t, step (small 0x00512000 1 2 true) = .next t :=
  ⟨by unfold WellFormedImage; decide, by decide, _, rfl⟩

/-- PcFitsItsRegister and LaunchWithinBound: the largest IC the default PCW admits, and one beyond it. -/
theorem witness_PcFitsItsRegister :
    icBound 32 (small 0x80000000 0 0 false).ic = true ∧ (∃ t, step (small 0x80000000 0 0 false) = .next t)
    ∧ icBound 32 (2 ^ 31 - 2 ^ 27) = true ∧ icBound 32 (2 ^ 31 - 2 ^ 27 + 1) = false ∧ 1 ≤ defaultPcw :=
  ⟨by decide, ⟨_, rfl⟩, by decide, by decide, by decide⟩

theorem witness_PlacedInstructionRuns : 0xFFFFFFFF < 2 ^ 32 := by decide

/-- LaunchIsCleanEntry and EmptyProgram: launches with IC = 0 and IC = 1 and a canonical image. -/
theorem witness_LaunchIsCleanEntry :
    let p : LaunchParams := { ic := 1, image := Memory.placeWords [] 0 [0x01800105], init := Vector.replicate 16 none }
    let q : LaunchParams := { ic := 0, image := [], init := Vector.replicate 16 none }
    Memory.wf p.image = true ∧ (nextOf (launch p)).isSome = true ∧ p.ic > 0 ∧ q.ic = 0 := by decide

/-- ResultIsTheFinalState: each terminated state has a result. -/
theorem witness_ResultIsTheFinalState :
    (readResult State.reset).isSome = true ∧ (readResult { State.reset with pc := -1 }).isSome = true
    ∧ (readResult { State.reset with fault := true }).isSome = true := by decide

/-- HowARunEnds: from a state with no fault latched, a run over a well-formed image that ends past it, one that ends at a
negative `pc`, and one whose fetch fails. -/
theorem witness_HowARunEnds :
    (WellFormedImage (small 0x01800105 0 0 false) ∧ (small 0x01800105 0 0 false).fault = false
      ∧ ∃ t, RunEnds (small 0x01800105 0 0 false) t ∧ t.fault = false ∧ t.pc = 1)
    ∧ (0 ≤ (small 0x88000001 0 0 false).pc ∧ (small 0x88000001 0 0 false).fault = false
      ∧ ∃ t, RunEnds (small 0x88000001 0 0 false) t ∧ t.fault = false ∧ t.pc = -1)
    ∧ ∃ t, RunEnds { State.reset with ic := 1 } t ∧ t.fault = true ∧ t.pc = 0 :=
  ⟨⟨by unfold WellFormedImage; decide, by decide, _, ⟨1, rfl, by decide⟩, by decide, by decide⟩,
    ⟨by decide, by decide, _, ⟨1, rfl, by decide⟩, by decide, by decide⟩,
    _, ⟨1, rfl, by decide⟩, by decide, by decide⟩

end Sys2Proof.Tests
end

section
/-! The encoding family (30_encoding.md R61, R65, R72): the fields of an encoded word, the word of decoded fields,
and the format that BCC selects. -/
namespace Sys2Proof

open Sys2Proof.Machine Sys2Proof.Claims

/-! ## The fields of a word by their numbers -/

theorem decodeFields_bcc (w : InstrWord) : (decodeFields w).bcc = w.extractLsb' 28 4 := rfl

theorem decodeFields_bcc_toNat (w : InstrWord) : (decodeFields w).bcc.toNat = bccOf w := by
  have := w.isLt
  rw [decodeFields_bcc, extractLsb'_toNat_eq]
  simp only [bccOf]
  omega

theorem decodeFields_bcc_eq_zero_iff (w : InstrWord) : (decodeFields w).bcc = 0 ↔ bccOf w = 0 := by
  rw [← decodeFields_bcc_toNat]
  exact BitVec.toNat_inj.symm

theorem decodeFields_opcode (w : InstrWord) : (decodeFields w).opcode = BitVec.ofNat 4 (opcodeOf w) :=
  extractLsb'_eq_ofNat rfl

theorem opcodeOf_lt (w : InstrWord) : opcodeOf w < 16 := Nat.mod_lt _ (by decide)

theorem bccOf_lt (w : InstrWord) : bccOf w < 16 := by
  have := w.isLt
  simp only [bccOf]
  omega

/-- A single bit as a number. -/
theorem getLsbD_toNat_eq (w : InstrWord) (i : Nat) : (w.getLsbD i).toNat = w.toNat / 2 ^ i % 2 := by
  rw [← BitVec.testBit_toNat, Nat.toNat_testBit]

/-- A single bit is the flag whose number it has. -/
theorem getLsbD_eq_of_toNat {w : InstrWord} {i : Nat} {b : Bool} (h : w.toNat / 2 ^ i % 2 = b.toNat) :
    w.getLsbD i = b := by
  rw [getLsbD_eq_decide, h]
  cases b <;> rfl

/-- A register field is the index whose number it has. -/
theorem extractLsb'_toFin_eq {w : InstrWord} {start : Nat} {r : RegIdx} (h : w.toNat / 2 ^ start % 2 ^ 4 = r.val) :
    (w.extractLsb' start 4).toFin = r :=
  toFin_eq_of_toNat ((extractLsb'_toNat_eq w start 4).trans h)

/-- The magnitude of any word fits its field (R63). -/
theorem decodeFields_branch_wellFormed (w : InstrWord) : (decodeFields w).branch.wellFormed = true :=
  decide_eq_true (decodeFields w).mag.isLt

/-! ## Decoding an encoded tuple (R72) -/

theorem decodeFields_encodeAlu_alu {opcode : Nat} (h : opcode < 16) (a : AluFields) :
    (decodeFields (encodeAlu opcode a)).alu = a := by
  have hw := encodeAlu_toNat h a
  have := a.immFlag.toNat_lt
  have := a.imm.isLt
  have hflag : (encodeAlu opcode a).getLsbD 24 = a.immFlag := getLsbD_eq_of_toNat (by omega)
  have hsrc1 : ((encodeAlu opcode a).extractLsb' 16 4).toFin = a.src1 := extractLsb'_toFin_eq (by omega)
  have hsrc2 : ((encodeAlu opcode a).extractLsb' 12 4).toFin = a.src2 := extractLsb'_toFin_eq (by omega)
  have hdest : ((encodeAlu opcode a).extractLsb' 8 4).toFin = a.dest := extractLsb'_toFin_eq (by omega)
  have himm : (encodeAlu opcode a).extractLsb' 0 8 = a.imm :=
    BitVec.eq_of_toNat_eq ((extractLsb'_toNat_eq _ 0 8).trans (by omega))
  simp only [decodeFields, Fields.alu, hflag, hsrc1, hsrc2, hdest, himm]

theorem decodeFields_encodeBranch_branch {bcc : Nat} (h : bcc < 16) {d : BranchFields} (hd : d.wellFormed = true) :
    (decodeFields (encodeBranch bcc d)).branch = d := by
  have hw := encodeBranch_toNat h hd
  have := d.sign.toNat_lt
  have hm : d.mag < 2 ^ 27 := of_decide_eq_true hd
  have hsign : (encodeBranch bcc d).getLsbD 27 = d.sign := getLsbD_eq_of_toNat (by omega)
  have hmag : ((encodeBranch bcc d).extractLsb' 0 27).toNat = d.mag := by
    rw [extractLsb'_toNat_eq]
    omega
  simp only [decodeFields, Fields.branch, hsign, hmag]

theorem decodeFields_encodeAlu_bcc {opcode : Nat} (h : opcode < 16) (a : AluFields) :
    (decodeFields (encodeAlu opcode a)).bcc = 0 := by
  rw [decodeFields_bcc, encodeAlu_bcc h]
  rfl

theorem decodeFields_encodeAlu_opcode {opcode : Nat} (h : opcode < 16) (a : AluFields) :
    (decodeFields (encodeAlu opcode a)).opcode = BitVec.ofNat 4 opcode :=
  encodeAlu_opcode h a

/-- The fields under an ALU tuple are the tuple's. Stated of any record of fields, so that the kernel compares no
encoded words. -/
theorem Fields.eq_of_alu_eq {f : Fields} {a : AluFields} (h : f.alu = a) :
    f.immFlag = a.immFlag ∧ f.src1.toNat = a.src1.val ∧ f.src2.toNat = a.src2.val ∧ f.dest.toNat = a.dest.val
      ∧ f.imm = a.imm := by
  subst h
  exact ⟨rfl, rfl, rfl, rfl, rfl⟩

/-- The fields under a branch tuple are the tuple's. -/
theorem Fields.eq_of_branch_eq {f : Fields} {d : BranchFields} (h : f.branch = d) :
    f.sign = d.sign ∧ f.mag.toNat = d.mag := by
  subst h
  exact ⟨rfl, rfl⟩

/-- EncodeALU's word has BCC 0, its opcode and its tuple. -/
theorem decodeFields_encodeAlu {opcode : Nat} (h : opcode < 16) (a : AluFields) :
    let f := decodeFields (encodeAlu opcode a)
    f.bcc = 0 ∧ f.immFlag = a.immFlag ∧ f.opcode.toNat = opcode ∧ f.src1.toNat = a.src1.val
      ∧ f.src2.toNat = a.src2.val ∧ f.dest.toNat = a.dest.val ∧ f.imm = a.imm := by
  obtain ⟨hflag, hregs⟩ := Fields.eq_of_alu_eq (decodeFields_encodeAlu_alu h a)
  have hopcode : (decodeFields (encodeAlu opcode a)).opcode.toNat = opcode := by
    rw [decodeFields_encodeAlu_opcode h, BitVec.toNat_ofNat]
    exact Nat.mod_eq_of_lt h
  exact ⟨decodeFields_encodeAlu_bcc h a, hflag, hopcode, hregs⟩

/-- EncodeBranch's word has its code and its tuple. -/
theorem decodeFields_encodeBranch {bcc : Nat} (h : bcc < 16) {d : BranchFields} (hd : d.wellFormed = true) :
    let f := decodeFields (encodeBranch bcc d)
    f.bcc.toNat = bcc ∧ f.sign = d.sign ∧ f.mag.toNat = d.mag := by
  have hbcc : (decodeFields (encodeBranch bcc d)).bcc.toNat = bcc := by
    rw [decodeFields_bcc, encodeBranch_bcc h hd, BitVec.toNat_ofNat]
    exact Nat.mod_eq_of_lt h
  exact ⟨hbcc, Fields.eq_of_branch_eq (decodeFields_encodeBranch_branch h hd)⟩

/-! ## The instruction of a word, by its format (R61) -/

theorem decode_of_bccOf_eq_zero {w : InstrWord} (h : bccOf w = 0) :
    decode w = decodeAlu (decodeFields w).opcode (decodeFields w).alu :=
  if_pos ((decodeFields_bcc_eq_zero_iff w).mpr h)

theorem decode_of_bccOf_ne_zero {w : InstrWord} (h : bccOf w ≠ 0) :
    decode w = decodeBranch (decodeFields w).bcc (decodeFields w).branch :=
  if_neg fun h0 => h ((decodeFields_bcc_eq_zero_iff w).mp h0)

theorem decode_encodeAlu {opcode : Nat} (h : opcode < 16) (a : AluFields) :
    decode (encodeAlu opcode a) = decodeAlu (BitVec.ofNat 4 opcode) a := by
  have hbcc := (decodeFields_bcc_eq_zero_iff _).mp (decodeFields_encodeAlu_bcc h a)
  rw [decode_of_bccOf_eq_zero hbcc, decodeFields_encodeAlu_opcode h, decodeFields_encodeAlu_alu h]

/-- The map of OPCODE values answers the 16 ALU instructions only (R67). -/
theorem decodeAlu_mem (opcode : BitVec 4) (a : AluFields) :
    decodeAlu opcode a ∈ [Instr.and a, .orr a, .eor a, .add a, .adc a, .cmp a, .sub a, .sbc a,
      .mov a, .lsh a, .rsh a, .nop11 a, .nop12 a, .nop13 a, .nop14 a, .nop15 a] := by
  unfold decodeAlu
  split <;> simp

/-- The map of BCC values answers the 15 branches only (R68). -/
theorem decodeBranch_mem (bcc : BitVec 4) (d : BranchFields) :
    decodeBranch bcc d ∈ [Instr.b d, .beq d, .bne d, .ble d, .bge d, .bl d, .bg d,
      .br1 d, .br2 d, .br3 d, .br4 d, .br5 d, .br6 d, .br7 d, .br15 d] := by
  unfold decodeBranch
  split <;> simp

/-! ## Encoding the fields of a word (R72) -/

/-- Re-encoding the ALU fields of any word gives the word with bits 31 to 25 zero. -/
theorem encodeAlu_decodeFields_toNat (w : InstrWord) :
    (encodeAlu (opcodeOf w) (decodeFields w).alu).toNat = w.toNat % 2 ^ 25 := by
  have hflag := getLsbD_toNat_eq w 24
  have hsrc1 := extractLsb'_toNat_eq w 16 4
  have hsrc2 := extractLsb'_toNat_eq w 12 4
  have hdest := extractLsb'_toNat_eq w 8 4
  have himm := extractLsb'_toNat_eq w 0 8
  rw [encodeAlu_toNat (opcodeOf_lt w)]
  simp only [decodeFields, Fields.alu, BitVec.val_toFin, opcodeOf]
  omega

theorem encodeBranch_decodeFields (w : InstrWord) : encodeBranch (bccOf w) (decodeFields w).branch = w := by
  have hsign := getLsbD_toNat_eq w 27
  have hmag := extractLsb'_toNat_eq w 0 27
  apply BitVec.eq_of_toNat_eq
  rw [encodeBranch_toNat (bccOf_lt w) (decodeFields_branch_wellFormed w)]
  simp only [decodeFields, Fields.branch, bccOf]
  omega

theorem encodeAlu_decodeFields_of_canonical {w : InstrWord} (hbcc : bccOf w = 0) (hbits : w.toNat / 2 ^ 25 % 8 = 0) :
    encodeAlu (opcodeOf w) (decodeFields w).alu = w := by
  apply BitVec.eq_of_toNat_eq
  rw [encodeAlu_decodeFields_toNat]
  simp only [bccOf] at hbcc
  omega

/-- The canonical form of an ALU word decodes as the word does. -/
theorem decode_encodeAlu_decodeFields {w : InstrWord} (h : bccOf w = 0) :
    decode (encodeAlu (opcodeOf w) (decodeFields w).alu) = decode w := by
  rw [decode_encodeAlu (opcodeOf_lt w), decode_of_bccOf_eq_zero h, decodeFields_opcode]

/-! ## Operand 2 (R65) -/

/-- The immediate of an ALU word as operand 2: its number is kept by the zero extension (R65). -/
theorem operand2_imm_toNat {a : AluFields} (h : a.immFlag = true) (s : State) :
    (operand2 a s).toNat = a.imm.toNat := by
  have := a.imm.isLt
  rw [operand2_imm h, BitVec.zeroExtend_eq_setWidth, BitVec.toNat_setWidth]
  omega

/-! ## The obligations -/

/-- Settles O2: both field round trips, and re-encoding by the number of the word. -/
theorem fieldTuplesRoundTrip : Obligations.FieldTuplesRoundTrip := by
  refine ⟨fun opcode a h => ?alu, fun bcc d _ h hd => ?branch, fun w _ => encodeBranch_decodeFields w,
    fun w => encodeAlu_decodeFields_of_canonical,
    fun w h => ⟨encodeAlu_decodeFields_toNat w, decode_encodeAlu_decodeFields h⟩⟩
  case alu => exact decodeFields_encodeAlu (Nat.lt_succ_of_le h) a
  case branch => exact decodeFields_encodeBranch (Nat.lt_succ_of_le h) (decide_eq_true (Nat.lt_succ_of_le hd))

/-- Settles O5: BCC selects the map, and each map answers instructions of its own format. -/
theorem bccSelectsFormat : Obligations.BccSelectsFormat := by
  refine fun w => ⟨fun h => ⟨(decodeFields w).alu, ?_⟩, fun h => ⟨(decodeFields w).branch, ?_⟩⟩
  · rw [decode_of_bccOf_eq_zero h]
    exact decodeAlu_mem _ _
  · rw [decode_of_bccOf_ne_zero h]
    exact decodeBranch_mem _ _

/-- Settles O9: the immediate is an 8-bit number zero-extended; the register forms read the named registers. -/
theorem operandSelection : Obligations.OperandSelection := by
  refine fun a s => ⟨rfl, fun h => ?imm, fun h => operand2_reg h s⟩
  case imm =>
    rw [operand2_imm_toNat h s]
    exact ⟨rfl, Nat.le_of_lt_succ a.imm.isLt⟩

end Sys2Proof
end

section
/-! The branch family (41_branch.md R100 to R109): the meaning of every branch code, the effect of a branch word by its
bits, and the named and reserved branches. -/
namespace Sys2Proof

open Sys2Proof.Machine Sys2Proof.Claims

/-! ## The condition and the target of a branch -/

theorem condHolds_eq_holds (bcc : Nat) (f : CmpFlags) : condHolds bcc f = holds bcc f := by
  unfold condHolds
  split
  case h_7 h9 h10 h11 h12 h13 h14 =>
    simp only [holds, if_neg h9, if_neg h10, if_neg h11, if_neg h12, if_neg h13, if_neg h14]
  all_goals rfl

theorem branchTarget_eq_takenPc (d : BranchFields) (pc : Int) : branchTarget d pc = takenPc d pc := rfl

/-- The target of a word's decoded fields, by the numbers of its SIGN and OFFSET_MAG bits. -/
theorem branchTarget_decodeFields (w : InstrWord) (pc : Int) :
    branchTarget (decodeFields w).branch pc = if signOf w = 1 then pc - magOf w else pc + magOf w := by
  have hsign : (decodeFields w).branch.sign = decide (signOf w = 1) := getLsbD_eq_decide w 27
  have hmag : (decodeFields w).branch.mag = magOf w := by
    rw [magOf, ← Nat.div_one w.toNat]
    exact extractLsb'_toNat_eq w 0 27
  simp only [branchTarget, hsign, hmag, decide_eq_true_eq]

/-! ## What an instruction of each format does to `pc` -/

/-- Every branch code has one meaning, `branchStep` at the code (R100). -/
theorem exec_decodeBranch {bcc : BitVec 4} (h : bcc.toNat ≠ 0) (d : BranchFields) (s : State) :
    exec (decodeBranch bcc d) s = .next (branchStep bcc.toNat d s) := by
  have hlt := bcc.isLt
  unfold decodeBranch
  split
  case h_15 =>
    have hn : bcc.toNat = 15 := by
      simp only [imp_false] at *
      omega
    rw [hn]
    rfl
  all_goals
    rename_i hn
    rw [hn]
    rfl

/-- Every ALU word advances `pc` by 1 (R81). -/
theorem pc_of_exec_decodeAlu {opcode : BitVec 4} {a : AluFields} {s t : State}
    (h : exec (decodeAlu opcode a) s = .next t) : t.pc = s.pc + 1 := by
  unfold decodeAlu at h
  split at h
  case h_10 => cases (execLsh_eq a s).symm.trans h; rfl
  case h_11 => cases (execRsh_eq a s).symm.trans h; rfl
  all_goals cases h; rfl

/-! ## One branch instruction -/

section
variable {bcc : Nat} {mk : BranchFields → Instr} (hpos : bcc ≠ 0) (hlt : bcc < 16)
  (hmk : ∀ d, decodeBranch (BitVec.ofNat 4 bcc) d = mk d)
include hpos hlt hmk

/-- EncodeBranch's word decodes to the instruction of its code (R72). -/
theorem branchEncoding_of_decodeBranch : BranchEncoding bcc mk := by
  intro d hd
  have hwf : d.wellFormed = true := decide_eq_true (Nat.lt_succ_of_le hd)
  obtain ⟨hcode, -⟩ := decodeFields_encodeBranch hlt hwf
  have hbcc : bccOf (encodeBranch bcc d) = bcc := by rw [← decodeFields_bcc_toNat, hcode]
  show decode (encodeBranch bcc d) = mk d
  rw [decode_of_bccOf_ne_zero (hbcc.symm ▸ hpos), decodeFields_bcc, encodeBranch_bcc hlt hwf,
    decodeFields_encodeBranch_branch hlt hwf, hmk]

theorem exec_of_decodeBranch (d : BranchFields) (s : State) :
    exec (mk d) s
      = .next { s with pc := if condHolds bcc s.cmp = true then takenPc d s.pc else s.pc + 1 } := by
  have hcode : (BitVec.ofNat 4 bcc).toNat = bcc := Nat.mod_eq_of_lt hlt
  rw [← hmk, exec_decodeBranch (hcode.symm ▸ hpos), hcode, branchStep_eq, branchTarget_eq_takenPc, setPc]

/-- A code whose condition always holds is an unconditional branch. -/
theorem alwaysBranch_of_condHolds (hcond : ∀ f, condHolds bcc f = true) : AlwaysBranch bcc mk := by
  refine ⟨branchEncoding_of_decodeBranch hpos hlt hmk, fun d s => ?_⟩
  rw [exec_of_decodeBranch hpos hlt hmk, if_pos (hcond s.cmp)]

/-- A code whose condition is the stored `flag` is a conditional branch, when reset clears the flag and CMP writes it to
the unsigned relation `rel`. -/
theorem conditionalBranch_of_condHolds {flag : CmpFlags → Bool} {rel : Nat → Nat → Bool}
    (hcond : ∀ f, condHolds bcc f = flag f) (hreset : flag State.reset.cmp = false)
    (hrel : ∀ x y : Word, flag (compareFlags x y) = rel x.toNat y.toNat) : ConditionalBranch bcc mk flag rel := by
  have hexec := exec_of_decodeBranch hpos hlt hmk
  simp only [hcond] at hexec
  refine ⟨branchEncoding_of_decodeBranch hpos hlt hmk, hexec, fun d s hs => ?reset, fun a d s => ⟨_, rfl, ?afterCmp⟩⟩
  case reset => rw [hexec, hs, hreset, if_neg Bool.false_ne_true]
  case afterCmp => rw [hexec, setCmp_cmp, hrel]

end

/-! ## The obligations -/

/-- Settles O32: the format's map gives the instruction, and its meaning is read off the word's bits. -/
theorem branchWordEffect : Obligations.BranchWordEffect := by
  refine ⟨fun w s h => ?branch, fun w s t h ht => ?alu⟩
  case branch =>
    have hbcc : (decodeFields w).bcc.toNat ≠ 0 := by rwa [decodeFields_bcc_toNat]
    rw [decode_of_bccOf_ne_zero h, exec_decodeBranch hbcc, decodeFields_bcc_toNat, branchStep_eq,
      condHolds_eq_holds, branchTarget_decodeFields, setPc]
  case alu =>
    rw [decode_of_bccOf_eq_zero h] at ht
    exact pc_of_exec_decodeAlu ht

/-- Settles O24: code 8 has no flag to test. -/
theorem branchAlwaysResult : Obligations.BranchAlwaysResult :=
  alwaysBranch_of_condHolds (by decide) (by decide) (fun _ => rfl) (fun _ => rfl)

/-- Settles O25: code 9 tests EQ, which CMP writes to `=`. -/
theorem beqResult : Obligations.BeqResult :=
  conditionalBranch_of_condHolds (by decide) (by decide) (fun _ => rfl) (fun _ => rfl) rfl (fun _ _ => rfl)

/-- Settles O26: code 10 tests NE, which CMP writes to `≠`. -/
theorem bneResult : Obligations.BneResult :=
  conditionalBranch_of_condHolds (by decide) (by decide) (fun _ => rfl) (fun _ => rfl) rfl (fun _ _ => rfl)

/-- Settles O27: code 11 tests LE, which CMP writes to `≤`. -/
theorem bleResult : Obligations.BleResult :=
  conditionalBranch_of_condHolds (by decide) (by decide) (fun _ => rfl) (fun _ => rfl) rfl (fun _ _ => rfl)

/-- Settles O28: code 12 tests GE, which CMP writes to `≥`. -/
theorem bgeResult : Obligations.BgeResult :=
  conditionalBranch_of_condHolds (by decide) (by decide) (fun _ => rfl) (fun _ => rfl) rfl (fun _ _ => rfl)

/-- Settles O29: code 13 tests LT, which CMP writes to `<`; no register is written. -/
theorem blResult : Obligations.BlResult :=
  conditionalBranch_of_condHolds (by decide) (by decide) (fun _ => rfl) (fun _ => rfl) rfl (fun _ _ => rfl)

/-- Settles O30: code 14 tests GT, which CMP writes to `>`. -/
theorem bgResult : Obligations.BgResult :=
  conditionalBranch_of_condHolds (by decide) (by decide) (fun _ => rfl) (fun _ => rfl) rfl (fun _ _ => rfl)

/-- Settles O31: the codes 1 to 7 and 15 have no flag to test, as code 8. -/
theorem reservedBranchResult : Obligations.ReservedBranchResult := by
  refine ⟨?_, ?_, ?_, ?_, ?_, ?_, ?_, ?_⟩ <;>
    exact alwaysBranch_of_condHolds (by decide) (by decide) (fun _ => rfl) (fun _ => rfl)

end Sys2Proof
end

section
/-! The logic and move family (42_alu_logic_move.md R121 to R124): the encoding and the whole next state of an ALU
instruction that writes its result to DEST, for AND, ORR, EOR and MOV. -/
namespace Sys2Proof

open Sys2Proof.Machine Sys2Proof.Claims

/-! ## One ALU instruction -/

/-- EncodeALU's word decodes to the instruction of its opcode (R72). -/
theorem aluEncoding_of_decodeAlu {opcode : Nat} {mk : AluFields → Instr} (hlt : opcode < 16)
    (hmk : ∀ a, decodeAlu (BitVec.ofNat 4 opcode) a = mk a) : AluEncoding opcode mk :=
  fun a => (decode_encodeAlu hlt a).trans (hmk a)

/-- The step that writes DEST changes the destination and `pc` and nothing else (R81, R83). -/
theorem finishAlu_eq_wrote (a : AluFields) (v : Word) (s : State) : finishAlu a v s = wrote a v s := rfl

/-! ## The obligations -/

/-- Settles O10: opcode 0 writes the conjunction. -/
theorem andResult : Obligations.AndResult :=
  ⟨aluEncoding_of_decodeAlu (by decide) (fun _ => rfl),
    fun a s => congrArg Host.Outcome.next (finishAlu_eq_wrote a (operand1 a s &&& operand2 a s) s)⟩

/-- Settles O11: opcode 1 writes the disjunction. -/
theorem orrResult : Obligations.OrrResult :=
  ⟨aluEncoding_of_decodeAlu (by decide) (fun _ => rfl),
    fun a s => congrArg Host.Outcome.next (finishAlu_eq_wrote a (operand1 a s ||| operand2 a s) s)⟩

/-- Settles O12: opcode 2 writes the exclusive or. -/
theorem eorResult : Obligations.EorResult :=
  ⟨aluEncoding_of_decodeAlu (by decide) (fun _ => rfl),
    fun a s => congrArg Host.Outcome.next (finishAlu_eq_wrote a (operand1 a s ^^^ operand2 a s) s)⟩

/-- Settles O13: opcode 8 writes operand 2 itself. -/
theorem movResult : Obligations.MovResult :=
  ⟨aluEncoding_of_decodeAlu (by decide) (fun _ => rfl),
    fun a s => congrArg Host.Outcome.next (finishAlu_eq_wrote a (operand2 a s) s)⟩

end Sys2Proof
end

section
/-! The arithmetic family (43_alu_arith.md R130 to R133): the differences as remainders of the integer expressions, the
carry of the additions, and ADD, ADC, SUB and SBC. -/
namespace Sys2Proof

open Sys2Proof.Machine Sys2Proof.Claims

/-! ## Results over the integers -/

/-- A wrapped word's number is the remainder of the unbounded integer. -/
theorem ofInt_toNat_cast (i : Int) : ((BitVec.ofInt 64 i).toNat : Int) = i % 2 ^ 64 := by
  rw [BitVec.toNat_ofInt]
  exact Int.toNat_of_nonneg (Int.emod_nonneg i (by decide))

theorem diffWord_toNat_cast (op1 op2 : Word) :
    ((diffWord op1 op2).toNat : Int) = ((op1.toNat : Int) - op2.toNat) % 2 ^ 64 :=
  ofInt_toNat_cast _

theorem diffCarryWord_toNat_cast (op1 op2 : Word) (cin : Bool) :
    ((diffCarryWord op1 op2 cin).toNat : Int) = ((op1.toNat : Int) - op2.toNat + cin.toNat - 1) % 2 ^ 64 :=
  ofInt_toNat_cast _

/-! ## The step of an addition -/

/-- An addition writes DEST, `pc` and the carry, and the carry is the unsigned overflow of its operands, whatever
word `v` it writes (R130, R131). -/
theorem setCarry_finishAlu_addCarry (a : AluFields) (v op1 op2 : Word) (s : State) :
    setCarry (finishAlu a v s) (addCarry op1 op2)
      = { wrote a v s with carry := decide (op1.toNat + op2.toNat ≥ 2 ^ 64) } := rfl

/-! ## The obligations -/

/-- Settles O14: opcode 3 writes the sum without a carry-in. -/
theorem addResult : Obligations.AddResult := by
  refine ⟨aluEncoding_of_decodeAlu (by decide) (fun _ => rfl), fun a s => ⟨_, sumWord_toNat _ _ false, ?exec⟩⟩
  case exec => exact congrArg Host.Outcome.next (setCarry_finishAlu_addCarry a _ _ _ s)

/-- Settles O15: opcode 4 writes the sum with the stored carry; the carry test is ADD's. -/
theorem adcResult : Obligations.AdcResult := by
  refine ⟨aluEncoding_of_decodeAlu (by decide) (fun _ => rfl), fun a s => ⟨_, sumWord_toNat _ _ s.carry, ?exec⟩⟩
  case exec => exact congrArg Host.Outcome.next (setCarry_finishAlu_addCarry a _ _ _ s)

/-- Settles O16: opcode 6 writes the difference and no flag. -/
theorem subResult : Obligations.SubResult := by
  refine ⟨aluEncoding_of_decodeAlu (by decide) (fun _ => rfl), fun a s => ⟨_, diffWord_toNat_cast _ _, ?exec⟩⟩
  case exec => exact congrArg Host.Outcome.next (finishAlu_eq_wrote a _ s)

/-- Settles O17: opcode 7 writes the difference with the stored carry, less 1, and no flag. -/
theorem sbcResult : Obligations.SbcResult := by
  refine ⟨aluEncoding_of_decodeAlu (by decide) (fun _ => rfl),
    fun a s => ⟨_, diffCarryWord_toNat_cast _ _ s.carry, ?exec⟩⟩
  case exec => exact congrArg Host.Outcome.next (finishAlu_eq_wrote a _ s)

end Sys2Proof
end

section
/-! The compare family (44_alu_compare.md R140): the six flags as relations between the operand words, the step that
writes them, and CMP. -/
namespace Sys2Proof

open Sys2Proof.Machine Sys2Proof.Claims

/-! ## The flags and the step of CMP -/

/-- EQ and NE, which the model tests on the operands' numbers, are equality of the words: a word is its number (R140). -/
theorem compareFlags_eq_wordRelations (op1 op2 : Word) :
    compareFlags op1 op2
      = { eq := decide (op1 = op2), ne := decide (op1 ≠ op2)
          lt := decide (op1.toNat < op2.toNat), gt := decide (op1.toNat > op2.toNat)
          le := decide (op1.toNat ≤ op2.toNat), ge := decide (op1.toNat ≥ op2.toNat) } := by
  simp only [compareFlags, ne_eq, BitVec.toNat_inj, gt_iff_lt, ge_iff_le]

/-- CMP writes `pc` and the comparison flags and nothing else, whatever DEST holds (R140). -/
theorem exec_cmp (a : AluFields) (s : State) :
    exec (.cmp a) s = .next { s with pc := s.pc + 1, cmp := compareFlags (operand1 a s) (operand2 a s) } := rfl

/-! ## The obligations -/

/-- Settles O18: opcode 5 writes the six relations to the flags, and no register and no carry. -/
theorem cmpResult : Obligations.CmpResult := by
  refine ⟨aluEncoding_of_decodeAlu (by decide) (fun _ => rfl), fun a s => ?exec⟩
  case exec => rw [exec_cmp, compareFlags_eq_wordRelations]

end Sys2Proof
end

section
/-! The no-op family (46_alu_nop.md R150): the one meaning of the unsupported ALU opcodes, and NOP11 to NOP15. -/
namespace Sys2Proof

open Sys2Proof.Machine Sys2Proof.Claims

/-! ## The unsupported opcodes -/

/-- Every opcode from 11 on advances `pc` and changes nothing else, whatever the fields hold (R150). -/
theorem exec_decodeAlu_of_eleven_le {opcode : BitVec 4} (h : 11 ≤ opcode.toNat) (a : AluFields) (s : State) :
    exec (decodeAlu opcode a) s = .next { s with pc := s.pc + 1 } := by
  unfold decodeAlu
  split
  case h_12 | h_13 | h_14 | h_15 | h_16 => rfl
  all_goals omega

/-! ## The obligations -/

/-- Settles O21: the opcodes 11 to 15 are the unsupported ones. -/
theorem nopResult : Obligations.NopResult := by
  refine ⟨?_, ?_, ?_, ?_, ?_, fun a s => ?exec⟩
  case exec =>
    have hexec (opcode : BitVec 4) (h : 11 ≤ opcode.toNat) := exec_decodeAlu_of_eleven_le h a s
    exact ⟨hexec 11 (by decide), hexec 12 (by decide), hexec 13 (by decide), hexec 14 (by decide),
      hexec 15 (by decide)⟩
  all_goals exact aluEncoding_of_decodeAlu (by decide) (fun _ => rfl)

end Sys2Proof
end

section
/-! The exceptions family (60_exceptions.md R161, R162): the taken backward branch, the step that leaves `pc` negative,
and the terminal condition of such a state. -/
namespace Sys2Proof

open Sys2Proof.Machine Sys2Proof.Claims

/-! ## The terminal condition of a negative `pc` -/

theorem runState_of_pc_neg {s : State} (hfault : s.fault = false) (hpc : s.pc < 0) :
    runState s = .terminatedError := by
  simp [runState, runStateOf, hfault, hpc]

theorem terminalCondition_of_terminatedError {s : State} (h : runState s = .terminatedError) :
    terminalCondition s = some .negativeProgramCounter := by
  simp [terminalCondition, h]

/-! ## The step that leaves `pc` negative -/

/-- A taken branch with SIGN 1 moves `pc` back by its magnitude and changes nothing else (R100). -/
theorem exec_takenBackwardBranch {w : InstrWord} {s : State} (hbcc : bccOf w ≠ 0)
    (hcond : holds (bccOf w) s.cmp = true) (hsign : signOf w = 1) :
    exec (decode w) s = .next { s with pc := s.pc - magOf w } := by
  rw [branchWordEffect.1 w s hbcc, if_pos hcond, if_pos hsign]

/-- From a `pc` that is not negative, an instruction that leaves it negative is a taken branch with SIGN 1: no other
one lowers `pc`. -/
theorem takenBackwardBranch_of_exec_pc_neg {w : InstrWord} {s t : State} (hpc : 0 ≤ s.pc)
    (h : exec (decode w) s = .next t) (hneg : t.pc < 0) :
    bccOf w ≠ 0 ∧ holds (bccOf w) s.cmp = true ∧ signOf w = 1 := by
  obtain ⟨branch, alu⟩ := branchWordEffect
  have hbcc : bccOf w ≠ 0 := fun h0 => by
    have := alu w s t h0 h
    omega
  cases (branch w s hbcc).symm.trans h
  dsimp only at hneg
  split at hneg
  case isFalse => omega
  case isTrue hcond =>
    split at hneg
    case isFalse => omega
    case isTrue hsign => exact ⟨hbcc, hcond, hsign⟩

/-- A step that leaves `pc` negative runs a taken backward branch whose magnitude exceeds the old `pc` (R162). -/
theorem backwardBranch_of_step_pc_neg {s t : State} (h : step s = .next t) (hneg : t.pc < 0) :
    ∃ w, fetchWord s = some w ∧ bccOf w ≠ 0 ∧ holds (bccOf w) s.cmp = true ∧ signOf w = 1
      ∧ (magOf w : Int) > s.pc ∧ t = { s with pc := s.pc - magOf w } := by
  obtain ⟨hrun, hcases⟩ := step_cases h
  obtain ⟨-, hpc, -⟩ := (runState_running_iff s).mp hrun
  obtain ⟨-, rfl⟩ | ⟨w, hw, hexec⟩ := hcases
  · exact absurd hpc (Int.not_le.mpr hneg)
  · obtain ⟨hbcc, hcond, hsign⟩ := takenBackwardBranch_of_exec_pc_neg hpc hexec hneg
    cases (exec_takenBackwardBranch hbcc hcond hsign).symm.trans hexec
    exact ⟨w, hw, hbcc, hcond, hsign, Int.lt_of_sub_neg hneg, rfl⟩

/-! ## The obligations -/

/-- Settles O45: the step that leaves `pc` negative is known by `backwardBranch_of_step_pc_neg`, and such a branch
executes by `exec_takenBackwardBranch`. -/
theorem negativePcOnlyByBackwardBranch : Obligations.NegativePcOnlyByBackwardBranch := by
  refine fun s t hrun h => ⟨⟨fun hneg => ?cause, ?effect⟩, fun w hneg hw => ?next, fun hneg => ?ended⟩
  case cause =>
    obtain ⟨w, hw, hbcc, hcond, hsign, hmag, -⟩ := backwardBranch_of_step_pc_neg h hneg
    exact ⟨w, hw, hbcc, hcond, hsign, hmag⟩
  case effect =>
    rintro ⟨w, hw, hbcc, hcond, hsign, hmag⟩
    have hexec := (step_fetched hrun hw).symm.trans h
    cases (exec_takenBackwardBranch hbcc hcond hsign).symm.trans hexec
    exact Int.sub_neg_of_lt hmag
  case next =>
    obtain ⟨v, hv, -, -, -, -, ht⟩ := backwardBranch_of_step_pc_neg h hneg
    cases hv.symm.trans hw
    exact ht
  case ended =>
    obtain ⟨w, -, -, -, -, -, ht⟩ := backwardBranch_of_step_pc_neg h hneg
    obtain ⟨hfault, -, -⟩ := (runState_running_iff s).mp hrun
    have herr : runState t = .terminatedError := runState_of_pc_neg (by rw [ht]; exact hfault) hneg
    exact ⟨herr, terminalCondition_of_terminatedError herr⟩

end Sys2Proof
end

section
/-! The reset family (70_reset_and_hazards.md R181, R182, R184): what `load_registers` can write, the launch state's
fields, and the normal end with its result. -/
namespace Sys2Proof

open Sys2Proof.Machine Sys2Proof.Claims

/-! ## The launch state -/

/-- A turn of R182's loop writes registers only. -/
theorem loadRegister_eq_setRegs (init : InitMap) (s : State) (i : RegIdx) :
    ∃ regs, loadRegister init s i = { s with regs := regs } := by
  unfold loadRegister
  split
  case h_1 v _ => exact ⟨s.regs.set i v, rfl⟩
  case h_2 => exact ⟨s.regs, rfl⟩

theorem foldl_loadRegister_eq_setRegs (init : InitMap) (is : List RegIdx) (s : State) :
    ∃ regs, is.foldl (loadRegister init) s = { s with regs := regs } := by
  induction is generalizing s with
  | nil => exact ⟨s.regs, rfl⟩
  | cons i is ih =>
    obtain ⟨regs, hi⟩ := loadRegister_eq_setRegs init s i
    rw [List.foldl_cons, hi]
    exact ih { s with regs := regs }

/-- Beside its registers, the launch state holds the reset values and the launch parameters (R181). -/
theorem launchState_eq_setRegs (p : LaunchParams) :
    ∃ regs, launchState p = { State.reset with regs := regs, ic := p.ic, image := p.image } :=
  foldl_loadRegister_eq_setRegs p.init allRegs _

@[simp] theorem launchState_pc (p : LaunchParams) : (launchState p).pc = 0 := by
  obtain ⟨regs, h⟩ := launchState_eq_setRegs p
  rw [h]
  rfl

@[simp] theorem launchState_fault (p : LaunchParams) : (launchState p).fault = false := by
  obtain ⟨regs, h⟩ := launchState_eq_setRegs p
  rw [h]
  rfl

@[simp] theorem launchState_ic (p : LaunchParams) : (launchState p).ic = p.ic := by
  obtain ⟨regs, h⟩ := launchState_eq_setRegs p
  rw [h]

/-- Only IC decides whether a launch starts a run: `pc` is 0 and no fault is latched. -/
theorem runState_launchState_running_iff (p : LaunchParams) : runState (launchState p) = .running ↔ 0 < p.ic := by
  simp [runState_running_iff]

/-! ## The normal end -/

theorem runState_of_ic_le_pc {s : State} (hfault : s.fault = false) (hpc : (s.ic : Int) ≤ s.pc) :
    runState s = .terminatedOk := by
  have hneg : ¬ s.pc < 0 := Int.not_lt.mpr (Int.le_trans (Int.natCast_nonneg s.ic) hpc)
  simp [runState, runStateOf, hfault, hneg, Int.not_lt.mpr hpc]

theorem terminalCondition_of_terminatedOk {s : State} (h : runState s = .terminatedOk) :
    terminalCondition s = some .normalEnd := by
  simp [terminalCondition, h]

theorem readResult_of_terminatedOk {s : State} (h : runState s = .terminatedOk) :
    readResult s = some { regs := s.regs, condition := .normalEnd, pc := s.pc, carry := s.carry, cmp := s.cmp,
                          fault := s.fault } := by
  simp [readResult, terminalCondition_of_terminatedOk h]

/-! ## The obligations -/

/-- Settles O58: the launch state has `pc` 0 and no fault, so with IC = 0 it is a normal end, whose run is itself. -/
theorem emptyProgram : Obligations.EmptyProgram := by
  refine fun p => ⟨fun hic => ?empty, (runState_launchState_running_iff p).mpr⟩
  case empty =>
    have hok : runState (launchState p) = .terminatedOk := runState_of_ic_le_pc (launchState_fault p) (by simp [hic])
    have hstopped : runState (launchState p) ≠ .running := by simp [hok]
    exact ⟨hok, runFor_stopped hstopped, _, readResult_of_terminatedOk hok, rfl, launchState_pc p, rfl⟩

end Sys2Proof
end

section
/-! The whole of the encoding (30_encoding.md R69, R70, R72): every instruction as an entry of one of the decoder's two
maps, its round trip, the range of decoded fields, the ignored bits of an ALU word, and the one row of the opcode table
that a word is in. -/
namespace Sys2Proof

open Sys2Proof.Machine Sys2Proof.Claims

/-! ## The two maps cover the instructions -/

/-- Every instruction is the entry of its code in the map of its format, and is encoded with that code (R67, R68). -/
theorem Instr.eq_decodeAlu_or_decodeBranch (i : Instr) :
    (∃ opcode < 16, ∃ a, i = decodeAlu (BitVec.ofNat 4 opcode) a ∧ encode i = encodeAlu opcode a)
    ∨ (∃ bcc < 16, bcc ≠ 0 ∧ ∃ d, i = decodeBranch (BitVec.ofNat 4 bcc) d ∧ encode i = encodeBranch bcc d
        ∧ i.wellFormed = d.wellFormed) := by
  cases i with
  | and a => exact .inl ⟨0, by decide, a, rfl, rfl⟩
  | orr a => exact .inl ⟨1, by decide, a, rfl, rfl⟩
  | eor a => exact .inl ⟨2, by decide, a, rfl, rfl⟩
  | add a => exact .inl ⟨3, by decide, a, rfl, rfl⟩
  | adc a => exact .inl ⟨4, by decide, a, rfl, rfl⟩
  | cmp a => exact .inl ⟨5, by decide, a, rfl, rfl⟩
  | sub a => exact .inl ⟨6, by decide, a, rfl, rfl⟩
  | sbc a => exact .inl ⟨7, by decide, a, rfl, rfl⟩
  | mov a => exact .inl ⟨8, by decide, a, rfl, rfl⟩
  | lsh a => exact .inl ⟨9, by decide, a, rfl, rfl⟩
  | rsh a => exact .inl ⟨10, by decide, a, rfl, rfl⟩
  | nop11 a => exact .inl ⟨11, by decide, a, rfl, rfl⟩
  | nop12 a => exact .inl ⟨12, by decide, a, rfl, rfl⟩
  | nop13 a => exact .inl ⟨13, by decide, a, rfl, rfl⟩
  | nop14 a => exact .inl ⟨14, by decide, a, rfl, rfl⟩
  | nop15 a => exact .inl ⟨15, by decide, a, rfl, rfl⟩
  | br1 d => exact .inr ⟨1, by decide, by decide, d, rfl, rfl, rfl⟩
  | br2 d => exact .inr ⟨2, by decide, by decide, d, rfl, rfl, rfl⟩
  | br3 d => exact .inr ⟨3, by decide, by decide, d, rfl, rfl, rfl⟩
  | br4 d => exact .inr ⟨4, by decide, by decide, d, rfl, rfl, rfl⟩
  | br5 d => exact .inr ⟨5, by decide, by decide, d, rfl, rfl, rfl⟩
  | br6 d => exact .inr ⟨6, by decide, by decide, d, rfl, rfl, rfl⟩
  | br7 d => exact .inr ⟨7, by decide, by decide, d, rfl, rfl, rfl⟩
  | b d => exact .inr ⟨8, by decide, by decide, d, rfl, rfl, rfl⟩
  | beq d => exact .inr ⟨9, by decide, by decide, d, rfl, rfl, rfl⟩
  | bne d => exact .inr ⟨10, by decide, by decide, d, rfl, rfl, rfl⟩
  | ble d => exact .inr ⟨11, by decide, by decide, d, rfl, rfl, rfl⟩
  | bge d => exact .inr ⟨12, by decide, by decide, d, rfl, rfl, rfl⟩
  | bl d => exact .inr ⟨13, by decide, by decide, d, rfl, rfl, rfl⟩
  | bg d => exact .inr ⟨14, by decide, by decide, d, rfl, rfl, rfl⟩
  | br15 d => exact .inr ⟨15, by decide, by decide, d, rfl, rfl, rfl⟩

theorem decode_encodeBranch {bcc : Nat} (hpos : bcc ≠ 0) (hlt : bcc < 16) {d : BranchFields} (hd : d.wellFormed = true) :
    decode (encodeBranch bcc d) = decodeBranch (BitVec.ofNat 4 bcc) d :=
  branchEncoding_of_decodeBranch hpos hlt (fun _ => rfl) d (Nat.le_pred_of_lt (of_decide_eq_true hd))

theorem decodeAlu_wellFormed (opcode : BitVec 4) (a : AluFields) : (decodeAlu opcode a).wellFormed = true := by
  unfold decodeAlu
  split <;> rfl

theorem decodeBranch_wellFormed (bcc : BitVec 4) {d : BranchFields} (hd : d.wellFormed = true) :
    (decodeBranch bcc d).wellFormed = true := by
  unfold decodeBranch
  split <;> exact hd

/-! ## The ignored bits of an ALU word (R62, R69) -/

/-- The numbers of two words that agree under a mask agree on a slice where the mask is all ones. -/
theorem slice_eq_of_and_eq {w v mask : InstrWord} (start len : Nat) (hmask : mask.extractLsb' start len = BitVec.allOnes len)
    (h : w &&& mask = v &&& mask) : w.toNat / 2 ^ start % 2 ^ len = v.toNat / 2 ^ start % 2 ^ len := by
  have hslice := congrArg (BitVec.extractLsb' start len) h
  rw [BitVec.extractLsb'_and, BitVec.extractLsb'_and, hmask, BitVec.and_allOnes, BitVec.and_allOnes] at hslice
  rw [← extractLsb'_toNat_eq, ← extractLsb'_toNat_eq, hslice]

/-- An ALU word's instruction rests on its bits 24 to 0 alone. -/
theorem decode_eq_of_mod_eq {w v : InstrWord} (hw : bccOf w = 0) (hv : bccOf v = 0)
    (h : w.toNat % 2 ^ 25 = v.toNat % 2 ^ 25) : decode v = decode w := by
  have hcanon : encodeAlu (opcodeOf v) (decodeFields v).alu = encodeAlu (opcodeOf w) (decodeFields w).alu := by
    apply BitVec.eq_of_toNat_eq
    rw [encodeAlu_decodeFields_toNat, encodeAlu_decodeFields_toNat, h]
  rw [← decode_encodeAlu_decodeFields hv, hcanon, decode_encodeAlu_decodeFields hw]

/-! ## The row of a word (R70) -/

theorem decodeFields_opcode_toNat (w : InstrWord) : (decodeFields w).opcode.toNat = opcodeOf w :=
  extractLsb'_toNat_eq w 20 4

/-- An ALU word has the BCC and the OPCODE of the word encoded from its fields, and so that word's row. -/
theorem row_of_bccOf_eq_zero {w : InstrWord} (h : bccOf w = 0) (mnemonic : String) :
    w &&& (aluRow mnemonic (opcodeOf w)).mask = (aluRow mnemonic (opcodeOf w)).pattern := by
  have hbcc : w.extractLsb' 28 4 = 0#4 := (decodeFields_bcc_eq_zero_iff w).mpr h
  have hopcode : w.extractLsb' 20 4 = BitVec.ofNat 4 (opcodeOf w) := decodeFields_opcode w
  rw [← encodeAlu_row (opcodeOf_lt w) mnemonic (decodeFields w).alu]
  show w &&& 0xF0F00000#32 = _ &&& 0xF0F00000#32
  rw [and_aluMask, and_aluMask, encodeAlu_bcc (opcodeOf_lt w), encodeAlu_opcode (opcodeOf_lt w), hbcc, hopcode]

/-- A branch word is the encoding of its fields, and so in its code's row. -/
theorem row_of_branch (w : InstrWord) (mnemonic : String) :
    w &&& (branchRow mnemonic (bccOf w)).mask = (branchRow mnemonic (bccOf w)).pattern := by
  have hrow := encodeBranch_row (bccOf_lt w) mnemonic (decodeFields_branch_wellFormed w)
  rwa [encodeBranch_decodeFields] at hrow

theorem aluRow_decodeAlu_mem_opcodeTable (opcode : BitVec 4) (a : AluFields) :
    aluRow (decodeAlu opcode a).mnemonic opcode.toNat ∈ opcodeTable := by
  have hlt := opcode.isLt
  unfold decodeAlu
  split
  case h_16 =>
    have hn : opcode.toNat = 15 := by
      simp only [imp_false] at *
      omega
    rw [hn]
    exact List.elem_iff.mp rfl
  all_goals
    rename_i hn
    rw [hn]
    exact List.elem_iff.mp rfl

theorem branchRow_decodeBranch_mem_opcodeTable {bcc : BitVec 4} (hpos : bcc.toNat ≠ 0) (d : BranchFields) :
    branchRow (decodeBranch bcc d).mnemonic bcc.toNat ∈ opcodeTable := by
  have hlt := bcc.isLt
  unfold decodeBranch
  split
  case h_15 =>
    have hn : bcc.toNat = 15 := by
      simp only [imp_false] at *
      omega
    rw [hn]
    exact List.elem_iff.mp rfl
  all_goals
    rename_i hn
    rw [hn]
    exact List.elem_iff.mp rfl

/-- Every word is in the row of the instruction it decodes to. -/
theorem exists_row (w : InstrWord) :
    ∃ r ∈ opcodeTable, r.mnemonic = (decode w).mnemonic ∧ w &&& r.mask = r.pattern := by
  by_cases h : bccOf w = 0
  · have hmem := aluRow_decodeAlu_mem_opcodeTable (decodeFields w).opcode (decodeFields w).alu
    rw [decodeFields_opcode_toNat] at hmem
    rw [decode_of_bccOf_eq_zero h]
    exact ⟨_, hmem, rfl, row_of_bccOf_eq_zero h _⟩
  · have hbcc := decodeFields_bcc_toNat w
    have hmem := branchRow_decodeBranch_mem_opcodeTable (hbcc.symm ▸ h) (decodeFields w).branch
    rw [hbcc] at hmem
    rw [decode_of_bccOf_ne_zero h]
    exact ⟨_, hmem, rfl, row_of_branch w _⟩

/-- Two rows' patterns differ in a bit that both masks test. -/
def TableRow.Disjoint (q r : TableRow) : Prop := q.mask &&& r.mask &&& (q.pattern ^^^ r.pattern) ≠ 0#32

theorem TableRow.Disjoint.not_both {q r : TableRow} (h : q.Disjoint r) (w : InstrWord) (hq : w &&& q.mask = q.pattern) :
    w &&& r.mask ≠ r.pattern := by
  intro hr
  apply h
  rw [← hq, ← hr]
  ext i hi
  simp only [BitVec.getElem_and, BitVec.getElem_xor, BitVec.getElem_zero]
  cases q.mask[i] <;> cases r.mask[i] <;> simp

theorem opcodeTable_pairwise_disjoint : opcodeTable.Pairwise TableRow.Disjoint := by
  unfold TableRow.Disjoint
  decide

/-- Where no two entries of a list both pass a test, one that passes is all the filter leaves. -/
theorem filter_eq_singleton {α : Type} {p : α → Bool} {l : List α} {r : α}
    (h : l.Pairwise fun x y => p x = true → p y = false) (hr : r ∈ l) (hp : p r = true) : l.filter p = [r] := by
  obtain ⟨before, after, rfl⟩ := List.append_of_mem hr
  obtain ⟨-, hright, hleft⟩ := List.pairwise_append.mp h
  have hbefore : before.filter p = [] := List.filter_eq_nil_iff.mpr fun x hx hpx => by
    simp [hleft x hx r List.mem_cons_self hpx] at hp
  have hafter : after.filter p = [] := List.filter_eq_nil_iff.mpr fun y hy => by
    simp [(List.pairwise_cons.mp hright).1 y hy hp]
  rw [List.filter_append, List.filter_cons_of_pos hp, hbefore, hafter, List.nil_append]

/-! ## The obligations -/

/-- Settles O1: an instruction is its map's entry at its code, and the code is what the encoded word's fields give back. -/
theorem decodeOfEncode : Obligations.DecodeOfEncode := by
  intro i hwf
  obtain ⟨opcode, hlt, a, rfl, henc⟩ | ⟨bcc, hlt, hpos, d, rfl, henc, hd⟩ := i.eq_decodeAlu_or_decodeBranch
  · rw [henc, decode_encodeAlu hlt]
  · rw [henc, decode_encodeBranch hpos hlt (hd ▸ hwf)]

/-- Settles O3: a word is in the row of its instruction, and in no other, because the rows are disjoint in pairs. -/
theorem everyWordHasOneRow : Obligations.EveryWordHasOneRow := by
  refine ⟨rfl, fun w => ?_⟩
  obtain ⟨r, hr, hname, hmatch⟩ := exists_row w
  refine ⟨r, filter_eq_singleton (opcodeTable_pairwise_disjoint.imp fun hdisjoint hq => ?_) hr (decide_eq_true hmatch), hname⟩
  exact decide_eq_false (hdisjoint.not_both w (of_decide_eq_true hq))

/-- Settles O4: every entry of the ALU map is well formed, and a word's magnitude fits its field. -/
theorem decodedIsWellFormed : Obligations.DecodedIsWellFormed := by
  intro w
  by_cases h : bccOf w = 0
  · rw [decode_of_bccOf_eq_zero h]
    exact decodeAlu_wellFormed _ _
  · rw [decode_of_bccOf_ne_zero h]
    exact decodeBranch_wellFormed _ (decodeFields_branch_wellFormed w)

/-- Settles O6: the mask keeps BCC and bits 24 to 0, which decide the instruction of an ALU word. -/
theorem ignoredBitsOfAluWords : Obligations.IgnoredBitsOfAluWords := by
  intro w v hw hmask
  have hbcc := slice_eq_of_and_eq 28 4 (by decide) hmask
  have hlow := slice_eq_of_and_eq 0 25 (by decide) hmask
  refine decode_eq_of_mod_eq hw ?_ (by omega)
  have := v.isLt
  simp only [bccOf] at hw ⊢
  omega

/-- Settles O8, by evaluating the decoder on each of the nine words. -/
theorem writtenOutWords : Obligations.WrittenOutWords :=
  ⟨by decide, by decide, by decide, by decide, by decide, by decide, by decide, by decide, by decide⟩

end Sys2Proof
end

section
/-! The ALU words by R87's summary (40_cycle_and_decoder.md R87; 43 to 46): each operation's result written over 64-bit
words, the one equation for the meaning of an ALU word, and what `wholeAlu` can change. -/
namespace Sys2Proof

open Sys2Proof.Machine Sys2Proof.Claims

/-! ## Results over 64-bit words -/

theorem sumWord_eq_add (op1 op2 : Word) (cin : Bool) :
    sumWord op1 op2 cin = op1 + op2 + BitVec.zeroExtend 64 (BitVec.ofBool cin) := by
  apply BitVec.eq_of_toNat_eq
  cases cin <;> simp [sumWord]

theorem sumWord_false (op1 op2 : Word) : sumWord op1 op2 false = op1 + op2 := by
  rw [sumWord_eq_add]
  exact BitVec.add_zero _

theorem addCarry_eq_carry (op1 op2 : Word) : addCarry op1 op2 = BitVec.carry 64 op1 op2 false := by
  simp [addCarry, BitVec.carry, Nat.mod_eq_of_lt op1.isLt, Nat.mod_eq_of_lt op2.isLt]

theorem diffCarryWord_eq_sub (op1 op2 : Word) (cin : Bool) :
    diffCarryWord op1 op2 cin = op1 - op2 + BitVec.zeroExtend 64 (BitVec.ofBool cin) - 1 := by
  rw [diffCarryWord_eq]
  cases cin
  case false => exact congrArg (· - 1) (BitVec.add_zero _).symm
  case true => exact (BitVec.add_sub_cancel _ _).symm

/-- The six flags by the unsigned comparisons of 64-bit words (R140). -/
theorem compareFlags_eq_comparisons (op1 op2 : Word) :
    compareFlags op1 op2 = { eq := op1 == op2, ne := op1 != op2, le := op1.ule op2, ge := op2.ule op1,
                             lt := op1.ult op2, gt := op2.ult op1 } := by
  rw [compareFlags_eq_wordRelations]
  simp only [ne_eq, decide_not]
  rfl

/-- A shift by the whole 64-bit amount is 0 from 64 on (decision D4; log entry 2). -/
theorem lshWord_eq_shiftLeft_word (op1 op2 : Word) :
    (if op2.toNat < 64 then lshWord op1 op2.toNat else 0) = op1 <<< op2 := by
  rw [BitVec.shiftLeft_eq']
  split
  case isTrue => exact lshWord_eq_shiftLeft op1 op2.toNat
  case isFalse h => exact (BitVec.shiftLeft_eq_zero (Nat.le_of_not_lt h)).symm

theorem rshWord_eq_ushiftRight_word (op1 op2 : Word) :
    (if op2.toNat < 64 then rshWord op1 op2.toNat else 0) = op1 >>> op2 := by
  rw [BitVec.ushiftRight_eq']
  split
  case isTrue => exact rshWord_eq_ushiftRight op1 op2.toNat
  case isFalse h => exact (BitVec.ushiftRight_eq_zero (Nat.le_of_not_lt h)).symm

/-! ## The meaning of an ALU word -/

theorem wholeAlu_of_eleven_le {opcode : Nat} (h : 11 ≤ opcode) (dest : RegIdx) (op1 op2 : Word) (s : State) :
    wholeAlu opcode dest op1 op2 s = s := by
  unfold wholeAlu
  split
  case h_12 => rfl
  all_goals omega

/-- Every ALU word completes, with R87's effect of its opcode on the state whose `pc` has advanced. -/
theorem exec_decodeAlu (opcode : BitVec 4) (a : AluFields) (s : State) :
    exec (decodeAlu opcode a) s
      = .next (wholeAlu opcode.toNat a.dest (operand1 a s) (operand2 a s) (advance s)) := by
  by_cases h : 11 ≤ opcode.toNat
  case pos =>
    rw [exec_decodeAlu_of_eleven_le h, wholeAlu_of_eleven_le h]
    rfl
  case neg =>
    unfold decodeAlu
    split
    case h_4 hn => rw [hn]; simp only [exec, execAdd, sumWord_false, addCarry_eq_carry]; rfl
    case h_5 hn => rw [hn]; simp only [exec, execAdc, sumWord_eq_add, addCarry_eq_carry]; rfl
    case h_6 hn => rw [hn]; simp only [exec, execCmp, compareFlags_eq_comparisons]; rfl
    case h_7 hn => rw [hn]; simp only [exec, execSub, diffWord_eq_sub]; rfl
    case h_8 hn => rw [hn]; simp only [exec, execSbc, diffCarryWord_eq_sub]; rfl
    case h_10 hn => rw [hn]; simp only [exec, execLsh_eq, lshWord_eq_shiftLeft_word]; rfl
    case h_11 hn => rw [hn]; simp only [exec, execRsh_eq, rshWord_eq_ushiftRight_word]; rfl
    case h_1 hn | h_2 hn | h_3 hn | h_9 hn => rw [hn]; rfl
    case h_16 =>
      simp only [imp_false] at *
      omega
    all_goals omega

/-! ## What an ALU word leaves unchanged -/

section
variable (opcode : Nat) (dest : RegIdx) (op1 op2 : Word) (s : State)

@[simp] theorem wholeAlu_pc : (wholeAlu opcode dest op1 op2 s).pc = s.pc := by unfold wholeAlu; split <;> rfl
@[simp] theorem wholeAlu_fault : (wholeAlu opcode dest op1 op2 s).fault = s.fault := by unfold wholeAlu; split <;> rfl
@[simp] theorem wholeAlu_ic : (wholeAlu opcode dest op1 op2 s).ic = s.ic := by unfold wholeAlu; split <;> rfl
@[simp] theorem wholeAlu_image : (wholeAlu opcode dest op1 op2 s).image = s.image := by unfold wholeAlu; split <;> rfl

variable {opcode}

/-- Only ADD and ADC write the carry (10_state.md section 4). -/
theorem wholeAlu_carry (hadd : opcode ≠ 3) (hadc : opcode ≠ 4) :
    (wholeAlu opcode dest op1 op2 s).carry = s.carry := by
  unfold wholeAlu
  split
  case h_4 => exact absurd rfl hadd
  case h_5 => exact absurd rfl hadc
  all_goals rfl

/-- Only CMP writes the comparison flags (10_state.md section 4). -/
theorem wholeAlu_cmp (hcmp : opcode ≠ 5) : (wholeAlu opcode dest op1 op2 s).cmp = s.cmp := by
  unfold wholeAlu
  split
  case h_6 => exact absurd rfl hcmp
  all_goals rfl

/-- CMP writes the flags of its two operands. -/
theorem wholeAlu_cmp_of_cmp : (wholeAlu 5 dest op1 op2 s).cmp = compareFlags op1 op2 := by
  rw [compareFlags_eq_comparisons]
  rfl

/-- No register but the destination is written. -/
theorem readReg_wholeAlu_of_ne {r : RegIdx} (hr : r ≠ dest) : readReg (wholeAlu opcode dest op1 op2 s) r = readReg s r := by
  unfold wholeAlu
  split
  case h_6 | h_12 => rfl
  all_goals exact readReg_writeReg_ne s _ hr.symm

/-- CMP and the no-ops write no register. -/
theorem wholeAlu_regs_of_noWrite (h : opcode = 5 ∨ 11 ≤ opcode) : (wholeAlu opcode dest op1 op2 s).regs = s.regs := by
  obtain rfl | h := h
  · rfl
  · rw [wholeAlu_of_eleven_le h]

/-- Without ADC and SBC the carry is not read: another one changes at most the carry of the result. -/
theorem wholeAlu_agreeButCarry (hadc : opcode ≠ 4) (hsbc : opcode ≠ 7) (c : Bool) :
    AgreeButCarry (wholeAlu opcode dest op1 op2 s) (wholeAlu opcode dest op1 op2 { s with carry := c }) := by
  unfold wholeAlu
  split
  case h_5 => exact absurd rfl hadc
  case h_8 => exact absurd rfl hsbc
  all_goals exact ⟨rfl, rfl, rfl, rfl, rfl, rfl⟩

/-- No ALU word reads the comparison flags. -/
theorem wholeAlu_agreeButCmp (f : CmpFlags) :
    AgreeButCmp (wholeAlu opcode dest op1 op2 s) (wholeAlu opcode dest op1 op2 { s with cmp := f }) := by
  unfold wholeAlu
  split <;> exact ⟨rfl, rfl, rfl, rfl, rfl, rfl⟩

end

end Sys2Proof
end

section
/-! The results and frames of the instructions (10_state.md sections 2 and 4; 43 to 46): the shifts, the carry of ADC, the
outcomes of CMP, what each group of instructions leaves unchanged, and who reads a flag or a field. -/
namespace Sys2Proof

open Sys2Proof.Machine Sys2Proof.Claims

/-! ## Shifts -/

/-- Settles O19: opcode 9 writes the wrapped product by a power of two, and 0 for amounts of 64 or more. -/
theorem lshResult : Obligations.LshResult := by
  refine ⟨aluEncoding_of_decodeAlu (by decide) (fun _ => rfl), fun a s => ⟨_, ?value, execLsh_eq a s⟩⟩
  case value =>
    split
    case isTrue => exact BitVec.toNat_ofNat _ _
    case isFalse => rfl

/-- Settles O20: opcode 10 writes the quotient by a power of two, and 0 for amounts of 64 or more. -/
theorem rshResult : Obligations.RshResult := by
  refine ⟨aluEncoding_of_decodeAlu (by decide) (fun _ => rfl), fun a s => ⟨_, ?value, execRsh_eq a s⟩⟩
  case value =>
    split
    case isTrue => rw [rshWord_eq_ushiftRight, BitVec.toNat_ushiftRight, Nat.shiftRight_eq_div_pow]
    case isFalse => rfl

/-! ## The carry of ADC (43) -/

/-- Without a carry-in ADC is ADD. -/
theorem exec_adc_of_carry_false (a : AluFields) {s : State} (h : s.carry = false) :
    exec (.adc a) s = exec (.add a) s := by
  simp only [exec, execAdc, execAdd, h]

/-- The carry test leaves the carry-in out, which matters exactly where the operands alone add up to 2^64 - 1. -/
theorem addCarry_ne_fullAdder_iff (op1 op2 : Word) (cin : Bool) :
    addCarry op1 op2 ≠ decide (2 ^ 64 ≤ op1.toNat + op2.toNat + cin.toNat)
      ↔ cin = true ∧ op1.toNat + op2.toNat = 2 ^ 64 - 1 := by
  simp only [addCarry, ne_eq, decide_eq_decide]
  cases cin
  case false => simp
  case true =>
    simp only [Bool.toNat_true, true_and]
    omega

/-- Settles O22: ADC writes `addCarry`, whatever the carry-in. -/
theorem adcCarryAgainstFullAdder : Obligations.AdcCarryAgainstFullAdder :=
  fun a s => ⟨_, rfl, addCarry_ne_fullAdder_iff _ _ s.carry, exec_adc_of_carry_false a⟩

/-! ## The outcomes of CMP (44) -/

theorem compareFlags_of_eq (op : Word) : compareFlags op op = ⟨true, false, true, true, false, false⟩ := by
  simp [compareFlags]

theorem compareFlags_of_lt {op1 op2 : Word} (h : op1.toNat < op2.toNat) :
    compareFlags op1 op2 = ⟨false, true, true, false, true, false⟩ := by
  simp [compareFlags, h, Nat.ne_of_lt h, Nat.le_of_lt h, Nat.not_le_of_lt h, Nat.not_lt_of_lt h]

theorem compareFlags_of_gt {op1 op2 : Word} (h : op1.toNat > op2.toNat) :
    compareFlags op1 op2 = ⟨false, true, false, true, false, true⟩ := by
  simp [compareFlags, h, Nat.ne_of_gt h, Nat.le_of_lt h, Nat.not_le_of_lt h, Nat.not_lt_of_lt h]

theorem holds_equalPattern : ∀ c < 15, 9 ≤ c →
    (holds c ⟨true, false, true, true, false, false⟩ = true ↔ c = 9 ∨ c = 11 ∨ c = 12) := by decide

theorem holds_lessPattern : ∀ c < 15, 9 ≤ c →
    (holds c ⟨false, true, true, false, true, false⟩ = true ↔ c = 10 ∨ c = 11 ∨ c = 13) := by decide

theorem holds_greaterPattern : ∀ c < 15, 9 ≤ c →
    (holds c ⟨false, true, false, true, false, true⟩ = true ↔ c = 10 ∨ c = 12 ∨ c = 14) := by decide

/-- Settles O23: by the order of the operands' numbers; each order gives its pattern, whose identities are evaluated. -/
theorem cmpOutcomes : Obligations.CmpOutcomes := by
  intro a s
  refine ⟨_, exec_cmp a s, ?_⟩
  obtain h | h | h := Nat.lt_trichotomy (operand1 a s).toNat (operand2 a s).toNat
  · rw [compareFlags_of_lt h]
    exact ⟨.inr (.inl ⟨h, rfl, fun c h9 h14 => holds_lessPattern c (Nat.lt_succ_of_le h14) h9⟩), rfl, rfl, rfl, rfl⟩
  · have heq := BitVec.eq_of_toNat_eq h
    rw [heq, compareFlags_of_eq]
    exact ⟨.inl ⟨rfl, rfl, fun c h9 h14 => holds_equalPattern c (Nat.lt_succ_of_le h14) h9⟩, rfl, rfl, rfl, rfl⟩
  · rw [compareFlags_of_gt h]
    exact ⟨.inr (.inr ⟨h, rfl, fun c h9 h14 => holds_greaterPattern c (Nat.lt_succ_of_le h14) h9⟩), rfl, rfl, rfl, rfl⟩

/-! ## Frames (10_state.md sections 2 and 4) -/

/-- An ALU operation other than ADD, ADC and CMP changes its destination and `pc` only. -/
theorem destFrame_decodeAlu {opcode : BitVec 4} (hadd : opcode.toNat ≠ 3) (hadc : opcode.toNat ≠ 4)
    (hcmp : opcode.toNat ≠ 5) : DestFrame (decodeAlu opcode) := by
  intro a s t h
  cases (exec_decodeAlu opcode a s).symm.trans h
  exact ⟨fun r hr => readReg_wholeAlu_of_ne _ _ _ _ hr, wholeAlu_carry _ _ _ _ hadd hadc, wholeAlu_cmp _ _ _ _ hcmp,
    wholeAlu_fault .., wholeAlu_ic .., fun x => congrArg (Memory.read · x) (wholeAlu_image ..)⟩

/-- An ALU operation other than CMP changes its destination, the carry and `pc` only. -/
theorem destCarryFrame_decodeAlu {opcode : BitVec 4} (hcmp : opcode.toNat ≠ 5) : DestCarryFrame (decodeAlu opcode) := by
  intro a s t h
  cases (exec_decodeAlu opcode a s).symm.trans h
  exact ⟨fun r hr => readReg_wholeAlu_of_ne _ _ _ _ hr, wholeAlu_cmp _ _ _ _ hcmp,
    wholeAlu_fault .., wholeAlu_ic .., fun x => congrArg (Memory.read · x) (wholeAlu_image ..)⟩

theorem pcOnlyFrame_of_exec {i : Instr} {target : State → Int} (h : ∀ s, exec i s = .next (setPc s (target s))) :
    PcOnlyFrame i := by
  intro s t ht
  cases (h s).symm.trans ht
  exact ⟨fun _ => rfl, rfl, rfl, rfl, rfl, fun _ => rfl⟩

theorem pcOnlyFrame_decodeAlu {opcode : BitVec 4} (h : 11 ≤ opcode.toNat) (a : AluFields) :
    PcOnlyFrame (decodeAlu opcode a) :=
  pcOnlyFrame_of_exec (exec_decodeAlu_of_eleven_le h a)

theorem pcOnlyFrame_decodeBranch {bcc : BitVec 4} (h : bcc.toNat ≠ 0) (d : BranchFields) :
    PcOnlyFrame (decodeBranch bcc d) :=
  pcOnlyFrame_of_exec fun s =>
    (exec_decodeBranch h d s).trans (congrArg Host.Outcome.next (branchStep_eq bcc.toNat d s))

/-- Settles O33: the eight opcodes are none of ADD's, ADC's and CMP's. -/
theorem registerWriteFrames : Obligations.RegisterWriteFrames :=
  ⟨destFrame_decodeAlu (opcode := 0) (by decide) (by decide) (by decide),
    destFrame_decodeAlu (opcode := 1) (by decide) (by decide) (by decide),
    destFrame_decodeAlu (opcode := 2) (by decide) (by decide) (by decide),
    destFrame_decodeAlu (opcode := 6) (by decide) (by decide) (by decide),
    destFrame_decodeAlu (opcode := 7) (by decide) (by decide) (by decide),
    destFrame_decodeAlu (opcode := 8) (by decide) (by decide) (by decide),
    destFrame_decodeAlu (opcode := 9) (by decide) (by decide) (by decide),
    destFrame_decodeAlu (opcode := 10) (by decide) (by decide) (by decide)⟩

/-- Settles O34: ADD and ADC are not CMP, and CMP's next state is known whole. -/
theorem flagWriterFrames : Obligations.FlagWriterFrames := by
  refine ⟨destCarryFrame_decodeAlu (opcode := 3) (by decide), destCarryFrame_decodeAlu (opcode := 4) (by decide),
    fun a s t h => ?cmp⟩
  case cmp =>
    cases (exec_cmp a s).symm.trans h
    exact ⟨fun _ => rfl, rfl, rfl, rfl, fun _ => rfl⟩

/-- Settles O35: the opcodes 11 to 15 and every branch code move `pc` only. -/
theorem pcOnlyFrames : Obligations.PcOnlyFrames := by
  refine ⟨fun a => ?nops, fun d => ?named, fun d => ?reserved⟩
  case nops =>
    have frame (opcode : BitVec 4) (h : 11 ≤ opcode.toNat) := pcOnlyFrame_decodeAlu h a
    exact ⟨frame 11 (by decide), frame 12 (by decide), frame 13 (by decide), frame 14 (by decide), frame 15 (by decide)⟩
  case named =>
    have frame (bcc : BitVec 4) (h : bcc.toNat ≠ 0) := pcOnlyFrame_decodeBranch h d
    exact ⟨frame 8 (by decide), frame 9 (by decide), frame 10 (by decide), frame 11 (by decide), frame 12 (by decide),
      frame 13 (by decide), frame 14 (by decide)⟩
  case reserved =>
    have frame (bcc : BitVec 4) (h : bcc.toNat ≠ 0) := pcOnlyFrame_decodeBranch h d
    exact ⟨frame 1 (by decide), frame 2 (by decide), frame 3 (by decide), frame 4 (by decide), frame 5 (by decide),
      frame 6 (by decide), frame 7 (by decide), frame 15 (by decide)⟩

/-! ## Who reads a flag, and which fields are read -/

/-- A branch reads no carry. -/
theorem branchStep_agreeButCarry (bcc : Nat) (d : BranchFields) (s : State) (c : Bool) :
    AgreeButCarry (branchStep bcc d s) (branchStep bcc d { s with carry := c }) := by
  rw [branchStep_eq, branchStep_eq]
  exact ⟨rfl, rfl, rfl, rfl, rfl, rfl⟩

/-- Settles O39: ADC and SBC are the two opcodes whose effect reads the carry, and no branch does. -/
theorem carryIsReadOnlyByAdcAndSbc : Obligations.CarryIsReadOnlyByAdcAndSbc := by
  intro i s c hadc hsbc
  obtain ⟨opcode, hlt, a, rfl, -⟩ | ⟨bcc, hlt, hpos, d, rfl, -, -⟩ := i.eq_decodeAlu_or_decodeBranch
  · have hcode : (BitVec.ofNat 4 opcode).toNat = opcode := Nat.mod_eq_of_lt hlt
    have h4 : opcode ≠ 4 := fun h => hadc a (by rw [h]; rfl)
    have h7 : opcode ≠ 7 := fun h => hsbc a (by rw [h]; rfl)
    refine ⟨_, _, exec_decodeAlu _ a s, exec_decodeAlu _ a _, ?_⟩
    rw [hcode]
    exact wholeAlu_agreeButCarry _ _ _ (advance s) h4 h7 c
  · have hcode : (BitVec.ofNat 4 bcc).toNat ≠ 0 := by rwa [BitVec.toNat_ofNat, Nat.mod_eq_of_lt hlt]
    exact ⟨_, _, exec_decodeBranch hcode d s, exec_decodeBranch hcode d _, branchStep_agreeButCarry _ d s c⟩

/-- Settles O40: no opcode's effect reads the comparison flags. -/
theorem comparisonFlagsAreReadOnlyByBranches : Obligations.ComparisonFlagsAreReadOnlyByBranches := by
  intro w s f hw
  rw [decode_of_bccOf_eq_zero hw]
  exact ⟨_, _, exec_decodeAlu _ _ s, exec_decodeAlu _ _ _, wholeAlu_agreeButCmp _ _ _ (advance s) f⟩

/-- Settles O7: operand 2 selects by IMM_FLAG, MOV's result is operand 2, CMP writes flags only, and a no-op's next
state rests on no field. -/
theorem unusedFieldsHaveNoEffect : Obligations.UnusedFieldsHaveNoEffect := by
  refine ⟨fun a r s h => ?imm, fun a n s h => ?reg, fun a r s => rfl, fun a r s => rfl, fun a c s => ?nops⟩
  case imm => rw [operand2_imm h, operand2_imm (a := { a with src2 := r }) h]
  case reg => rw [operand2_reg h, operand2_reg (a := { a with imm := n }) h]
  case nops => exact ⟨rfl, rfl, rfl, rfl, rfl⟩

end Sys2Proof
end

section
/-! The step (10_state.md R26 to R30; 20_memory.md R49, R53; 40_cycle_and_decoder.md R80, R87; 60_exceptions.md R163): the
fetch, the step as R87's summary, all that a step can change, and the invariant. -/
namespace Sys2Proof

open Sys2Proof.Machine Sys2Proof.Claims

/-! ## The fetch -/

theorem wordOfBytes_toNat (b0 b1 b2 b3 : Byte) :
    (wordOfBytes b0 b1 b2 b3).toNat = b0.toNat * 2 ^ 24 + b1.toNat * 2 ^ 16 + b2.toNat * 2 ^ 8 + b3.toNat := by
  have := b0.isLt
  have := b1.isLt
  have := b2.isLt
  have := b3.isLt
  simp only [wordOfBytes, BitVec.toNat_ofNat]
  omega

theorem readWord_of_bytes {m : Memory} {i : Nat} {b0 b1 b2 b3 : Byte} (h0 : Memory.read m (4 * i) = some b0)
    (h1 : Memory.read m (4 * i + 1) = some b1) (h2 : Memory.read m (4 * i + 2) = some b2)
    (h3 : Memory.read m (4 * i + 3) = some b3) : readWord m i = some (wordOfBytes b0 b1 b2 b3) := by
  simp only [readWord, instrBytes, h0, h1, h2, h3]

/-- A word with a missing byte cannot be read (R49). -/
theorem readWord_of_missing {m : Memory} {i k : Nat} (hk : k < 4) (h : Memory.read m (4 * i + k) = none) :
    readWord m i = none := by
  unfold readWord instrBytes
  split
  case h_1 h0 h1 h2 h3 =>
    obtain rfl | rfl | rfl | rfl : k = 0 ∨ k = 1 ∨ k = 2 ∨ k = 3 := by omega
    · cases h.symm.trans h0
    · cases h.symm.trans h1
    · cases h.symm.trans h2
    · cases h.symm.trans h3
  case h_2 => rfl

theorem step_unfetched {s : State} (hr : runState s = .running) (hw : fetchWord s = none) :
    step s = .next (raiseTruncatedRead s) := by
  simp [step, hr, hw]

/-- In RUNNING, where the fetch is of an index below IC, a well-formed image answers it. -/
theorem fetchWord_ne_none {s : State} (himage : WellFormedImage s) (hr : runState s = .running) :
    fetchWord s ≠ none := by
  obtain ⟨-, hpc, hic⟩ := (runState_running_iff s).mp hr
  exact Option.isSome_iff_ne_none.mp (himage s.pc.toNat (by omega))

/-! ## The whole step by the word's format (R87) -/

theorem wholeStep_of_bccOf_ne_zero {w : InstrWord} (h : bccOf w ≠ 0) (s : State) :
    wholeStep w s = branchStep (bccOf w) (decodeFields w).branch s := by
  have hbcc : (decodeFields w).bcc ≠ 0 := fun h0 => h ((decodeFields_bcc_eq_zero_iff w).mp h0)
  rw [← decodeFields_bcc_toNat]
  exact if_pos hbcc

theorem wholeStep_of_bccOf_eq_zero {w : InstrWord} (h : bccOf w = 0) (s : State) :
    wholeStep w s = wholeAlu (opcodeOf w) (decodeFields w).alu.dest (operand1 (decodeFields w).alu s)
      (operand2 (decodeFields w).alu s) (advance s) := by
  have hbcc : (decodeFields w).bcc = 0 := (decodeFields_bcc_eq_zero_iff w).mpr h
  rw [← decodeFields_opcode_toNat]
  exact if_neg fun hne => hne hbcc

/-- Every word completes, with R87's effect of its fields. -/
theorem exec_decode (w : InstrWord) (s : State) : exec (decode w) s = .next (wholeStep w s) := by
  by_cases h : bccOf w = 0
  · rw [decode_of_bccOf_eq_zero h, exec_decodeAlu, wholeStep_of_bccOf_eq_zero h, decodeFields_opcode_toNat]
  · have hbcc : (decodeFields w).bcc.toNat ≠ 0 := by rwa [decodeFields_bcc_toNat]
    rw [decode_of_bccOf_ne_zero h, exec_decodeBranch hbcc, wholeStep_of_bccOf_ne_zero h, decodeFields_bcc_toNat]

/-- All a step can do, with the effect of the fetched word written out: `step_cases` through `exec_decode`. -/
theorem step_wholeStep_cases {s t : State} (h : step s = .next t) :
    runState s = .running ∧
      ((fetchWord s = none ∧ t = raiseTruncatedRead s) ∨ ∃ w, fetchWord s = some w ∧ t = wholeStep w s) := by
  obtain ⟨hr, hnone | ⟨w, hw, hexec⟩⟩ := step_cases h
  · exact ⟨hr, .inl hnone⟩
  · cases (exec_decode w s).symm.trans hexec
    exact ⟨hr, .inr ⟨w, hw, rfl⟩⟩

/-! ## What the whole step can change -/

@[simp] theorem wholeStep_fault (w : InstrWord) (s : State) : (wholeStep w s).fault = s.fault := by
  by_cases h : bccOf w = 0
  · simp [wholeStep_of_bccOf_eq_zero h]
  · simp [wholeStep_of_bccOf_ne_zero h]

@[simp] theorem wholeStep_ic (w : InstrWord) (s : State) : (wholeStep w s).ic = s.ic := by
  by_cases h : bccOf w = 0
  · simp [wholeStep_of_bccOf_eq_zero h]
  · simp [wholeStep_of_bccOf_ne_zero h]

@[simp] theorem wholeStep_image (w : InstrWord) (s : State) : (wholeStep w s).image = s.image := by
  by_cases h : bccOf w = 0
  · simp [wholeStep_of_bccOf_eq_zero h]
  · simp [wholeStep_of_bccOf_ne_zero h]

theorem addition_of_wholeStep_carry {w : InstrWord} {s : State} (h : (wholeStep w s).carry ≠ s.carry) :
    bccOf w = 0 ∧ (opcodeOf w = 3 ∨ opcodeOf w = 4) := by
  by_cases hbcc : bccOf w = 0
  · rw [wholeStep_of_bccOf_eq_zero hbcc] at h
    refine ⟨hbcc, Classical.byContradiction fun hopcode => ?_⟩
    obtain ⟨hadd, hadc⟩ := not_or.mp hopcode
    exact h (wholeAlu_carry _ _ _ _ hadd hadc)
  · rw [wholeStep_of_bccOf_ne_zero hbcc, branchStep_carry] at h
    exact absurd rfl h

/-- The comparison flags stay, or the word is CMP's and they are those of its operands. -/
theorem wholeStep_cmp_cases (w : InstrWord) (s : State) :
    (wholeStep w s).cmp = s.cmp ∨ (bccOf w = 0 ∧ opcodeOf w = 5 ∧ ∃ op1 op2, (wholeStep w s).cmp = compareFlags op1 op2) := by
  by_cases hbcc : bccOf w = 0
  · rw [wholeStep_of_bccOf_eq_zero hbcc]
    by_cases hcmp : opcodeOf w = 5
    · rw [hcmp]
      exact .inr ⟨hbcc, rfl, _, _, wholeAlu_cmp_of_cmp ..⟩
    · exact .inl (wholeAlu_cmp _ _ _ _ hcmp)
  · rw [wholeStep_of_bccOf_ne_zero hbcc]
    exact .inl (branchStep_cmp ..)

theorem destination_of_wholeStep_readReg {w : InstrWord} {s : State} {r : RegIdx}
    (h : readReg (wholeStep w s) r ≠ readReg s r) :
    bccOf w = 0 ∧ opcodeOf w ≤ 10 ∧ opcodeOf w ≠ 5 ∧ (decodeFields w).alu.dest = r := by
  by_cases hbcc : bccOf w = 0
  · rw [wholeStep_of_bccOf_eq_zero hbcc] at h
    have hwrites : ¬ (opcodeOf w = 5 ∨ 11 ≤ opcodeOf w) := fun hno =>
      h (readReg_congr (wholeAlu_regs_of_noWrite _ _ _ _ hno) r)
    have hdest : (decodeFields w).alu.dest = r := Classical.byContradiction fun hne =>
      h (readReg_wholeAlu_of_ne _ _ _ _ (Ne.symm hne))
    exact ⟨hbcc, by omega, by omega, hdest⟩
  · rw [wholeStep_of_bccOf_ne_zero hbcc] at h
    exact absurd (readReg_congr (branchStep_regs ..) r) h

/-- The reach of a well-formed displacement (R26, R66). -/
theorem branchTarget_bounds {d : BranchFields} (hd : d.wellFormed = true) (pc : Int) :
    pc - (2 ^ 27 - 1) ≤ branchTarget d pc ∧ branchTarget d pc ≤ pc + (2 ^ 27 - 1) := by
  have hm : d.mag < 2 ^ 27 := of_decide_eq_true hd
  unfold branchTarget
  split <;> omega

/-- No step moves `pc` by more than the widest displacement (R26). -/
theorem wholeStep_pc_bounds (w : InstrWord) (s : State) :
    s.pc - (2 ^ 27 - 1) ≤ (wholeStep w s).pc ∧ (wholeStep w s).pc ≤ s.pc + (2 ^ 27 - 1) := by
  by_cases h : bccOf w = 0
  · rw [wholeStep_of_bccOf_eq_zero h, wholeAlu_pc, advance_pc]
    omega
  · have htarget := branchTarget_bounds (decodeFields_branch_wellFormed w) s.pc
    rw [wholeStep_of_bccOf_ne_zero h, branchStep_pc]
    split
    · exact htarget
    · omega

/-! ## What a step keeps -/

theorem step_constantImage {s t : State} (h : step s = .next t) : ConstantImage s t := by
  obtain ⟨-, ⟨-, rfl⟩ | ⟨w, -, rfl⟩⟩ := step_wholeStep_cases h
  · exact ⟨rfl, rfl⟩
  · exact ⟨wholeStep_image w s, wholeStep_ic w s⟩

/-- The range of `pc` after any step: it stood below IC and moved by one displacement at most (R26). -/
theorem step_pc_bounds {s t : State} (h : step s = .next t) :
    -(2 ^ 27 - 1) ≤ t.pc ∧ t.pc ≤ (s.ic : Int) + 2 ^ 27 - 2 := by
  obtain ⟨hr, hcases⟩ := step_wholeStep_cases h
  obtain ⟨-, hpc, hic⟩ := (runState_running_iff s).mp hr
  obtain ⟨-, rfl⟩ | ⟨w, -, rfl⟩ := hcases
  · rw [raiseTruncatedRead_pc]
    omega
  · have := wholeStep_pc_bounds w s
    omega

/-- CMP writes one of the legal patterns (R30, R141). -/
theorem cmpLegal_compareFlags (op1 op2 : Word) : cmpLegal (compareFlags op1 op2) = true := by
  obtain h | h | h := Nat.lt_trichotomy op1.toNat op2.toNat
  · rw [compareFlags_of_lt h]
    rfl
  · rw [BitVec.eq_of_toNat_eq h, compareFlags_of_eq]
    rfl
  · rw [compareFlags_of_gt h]
    rfl

theorem step_flagsLegal {s t : State} (hs : cmpLegal s.cmp = true) (h : step s = .next t) : cmpLegal t.cmp = true := by
  obtain ⟨-, ⟨-, rfl⟩ | ⟨w, -, rfl⟩⟩ := step_wholeStep_cases h
  · exact hs
  · obtain hsame | ⟨-, -, op1, op2, hcmp⟩ := wholeStep_cmp_cases w s
    · rwa [hsame]
    · rw [hcmp]
      exact cmpLegal_compareFlags op1 op2

/-- A step latches a fault only where its fetch failed, at an index below IC, and it leaves `pc` there (R163). -/
theorem step_fault {s t : State} (h : step s = .next t) (hfault : t.fault = true) :
    fetchWord s = none ∧ t = raiseTruncatedRead s ∧ 0 ≤ s.pc ∧ s.pc < s.ic := by
  obtain ⟨hr, hcases⟩ := step_wholeStep_cases h
  obtain ⟨hnofault, hpc, hic⟩ := (runState_running_iff s).mp hr
  obtain ⟨hnone, rfl⟩ | ⟨w, -, rfl⟩ := hcases
  · exact ⟨hnone, rfl, hpc, hic⟩
  · rw [wholeStep_fault, hnofault] at hfault
    exact absurd hfault Bool.false_ne_true

theorem wellFormedImage_of_constantImage {s t : State} (h : ConstantImage s t) (hs : WellFormedImage s) :
    WellFormedImage t := by
  obtain ⟨himage, hic⟩ := h
  intro i hi
  rw [himage]
  exact hs i (hic ▸ hi)

end Sys2Proof
end

section
/-! The statements on the step (10_state.md sections 2 to 4; 20_memory.md; 40_cycle_and_decoder.md; 60_exceptions.md
section 1), each from the lemma on what a step does to the field it speaks of. -/
namespace Sys2Proof

open Sys2Proof.Machine Sys2Proof.Claims

/-! ## A step in RUNNING -/

/-- Settles O47: each clause by the lemma on what a step does to its field. -/
theorem stepKeepsInvariant : Obligations.StepKeepsInvariant := by
  intro s t hs h
  obtain ⟨himage, hic⟩ := step_constantImage h
  obtain ⟨hlow, hhigh⟩ := step_pc_bounds h
  exact
    { imageCanonical := himage.symm ▸ hs.imageCanonical
      flagsLegal := step_flagsLegal hs.flagsLegal h
      pcLow := hlow
      pcHigh := hic.symm ▸ hhigh
      faultInside := fun hfault => by
        obtain ⟨-, rfl, hinside⟩ := step_fault h hfault
        exact hinside }

/-- Settles O44: the fetch fails and latches, or the fetched word completes. -/
theorem runningStepCompletes : Obligations.RunningStepCompletes := by
  intro s hr
  cases hw : fetchWord s with
  | none => exact ⟨_, step_unfetched hr hw⟩
  | some w => exact ⟨_, (step_fetched hr hw).trans (exec_decode w s)⟩

/-- Settles O46, by `exec_decode`. -/
theorem stepIsWholeStep : Obligations.StepIsWholeStep :=
  fun s w hr hw => (step_fetched hr hw).trans (exec_decode w s)

/-- Settles O36: the opcodes of the words that can change the carry are ADD's and ADC's. -/
theorem onlyAdditionsWriteCarry : Obligations.OnlyAdditionsWriteCarry := by
  intro s t h hcarry
  obtain ⟨-, ⟨-, rfl⟩ | ⟨w, hw, rfl⟩⟩ := step_wholeStep_cases h
  · exact absurd rfl hcarry
  · obtain ⟨hbcc, hopcode⟩ := addition_of_wholeStep_carry hcarry
    refine ⟨w, (decodeFields w).alu, hw, ?_⟩
    rw [decode_of_bccOf_eq_zero hbcc, decodeFields_opcode]
    exact hopcode.imp (fun h3 => by rw [h3]; rfl) (fun h4 => by rw [h4]; rfl)

/-- Settles O37: the opcode of the words that can change a comparison flag is CMP's. -/
theorem onlyCmpWritesComparisonFlags : Obligations.OnlyCmpWritesComparisonFlags := by
  intro s t h hcmp
  obtain ⟨-, ⟨-, rfl⟩ | ⟨w, hw, rfl⟩⟩ := step_wholeStep_cases h
  · exact absurd rfl hcmp
  · obtain hsame | ⟨hbcc, hopcode, -⟩ := wholeStep_cmp_cases w s
    · exact absurd hsame hcmp
    · refine ⟨w, (decodeFields w).alu, hw, ?_⟩
      rw [decode_of_bccOf_eq_zero hbcc, decodeFields_opcode, hopcode]
      rfl

/-- Settles O38: the words that can change a register, with DEST read from bits 11 to 8. -/
theorem onlyDestinationsAreWritten : Obligations.OnlyDestinationsAreWritten := by
  intro s t r h hreg
  obtain ⟨-, ⟨-, rfl⟩ | ⟨w, hw, rfl⟩⟩ := step_wholeStep_cases h
  · exact absurd rfl hreg
  · obtain ⟨hbcc, hle, hne, rfl⟩ := destination_of_wholeStep_readReg hreg
    exact ⟨w, hw, hbcc, hle, hne, (extractLsb'_toNat_eq w 8 4).symm⟩

/-- Settles O49: the image itself is the same. -/
theorem stepKeepsImage : Obligations.StepKeepsImage := by
  intro s t h
  obtain ⟨himage, hic⟩ := step_constantImage h
  exact ⟨⟨himage, hic⟩, fun x => congrArg (Memory.read · x) himage⟩

/-- Settles O50: a latched fault would need a failed fetch below IC. -/
theorem wellFormedImageNeverFaults : Obligations.WellFormedImageNeverFaults := by
  intro s t himage _ h
  obtain ⟨hr, -⟩ := step_cases h
  refine ⟨Bool.eq_false_iff.mpr fun hfault => ?_, wellFormedImage_of_constantImage (step_constantImage h) himage⟩
  obtain ⟨hnone, -⟩ := step_fault h hfault
  exact fetchWord_ne_none himage hr hnone

/-- Settles O51: the reach of one displacement from an index below IC is within the bound on IC. -/
theorem pcFitsItsRegister : Obligations.PcFitsItsRegister := by
  intro pcw s t hbound h
  have hic : s.ic + 2 ^ 27 ≤ 2 ^ (pcw - 1) := of_decide_eq_true hbound
  have hcast : (s.ic : Int) + 2 ^ 27 ≤ 2 ^ (pcw - 1) := by exact_mod_cast hic
  obtain ⟨hlow, hhigh⟩ := step_pc_bounds h
  omega

/-- Settles O41: the four bytes make the fetched word. -/
theorem stepRunsDecoded : Obligations.StepRunsDecoded := by
  intro s b0 b1 b2 b3 hr h0 h1 h2 h3
  exact ⟨wordOfBytes b0 b1 b2 b3, wordOfBytes_toNat b0 b1 b2 b3, decodedIsWellFormed _,
    step_fetched hr (readWord_of_bytes h0 h1 h2 h3)⟩

/-! ## The terminated states -/

theorem runState_of_fault {s : State} (h : s.fault = true) : runState s = .terminatedFault := by
  simp [runState, runStateOf, h]

theorem terminalCondition_of_terminatedFault {s : State} (h : runState s = .terminatedFault) :
    terminalCondition s = some .truncatedRead := by
  simp [terminalCondition, h]

theorem step_of_terminatedFault {s : State} (h : runState s = .terminatedFault) :
    step s = .fault .terminatedFault := by
  simp [step, h]

theorem step_of_terminatedError {s : State} (h : runState s = .terminatedError) :
    step s = .fault .terminatedError := by
  simp [step, h]

theorem step_of_terminatedOk {s : State} (h : runState s = .terminatedOk) : step s = .fault .terminatedOk := by
  simp [step, h]

/-- Settles O42: the run state case by case, and `step` by the run state. -/
theorem runStateAndStops : Obligations.RunStateAndStops := by
  refine fun s => ⟨fun hfault => ?fault, fun hfault hpc => ?error,
    fun hfault hpc hic => (runState_running_iff s).mpr ⟨hfault, hpc, hic⟩, fun hfault hpc => ?ok⟩
  case fault =>
    have hr := runState_of_fault hfault
    exact ⟨hr, step_of_terminatedFault hr⟩
  case error =>
    have hr := runState_of_pc_neg hfault hpc
    exact ⟨hr, step_of_terminatedError hr⟩
  case ok =>
    have hr := runState_of_ic_le_pc hfault hpc
    exact ⟨hr, step_of_terminatedOk hr⟩

/-- Settles O43: a missing byte fails the fetch, and the latch ends the run. -/
theorem truncatedReadStop : Obligations.TruncatedReadStop := by
  intro s k hr hk hmissing
  have hlatched : runState { s with fault := true } = .terminatedFault := runState_of_fault rfl
  exact ⟨step_unfetched hr (readWord_of_missing hk hmissing), hlatched, terminalCondition_of_terminatedFault hlatched,
    step_of_terminatedFault hlatched⟩

end Sys2Proof
end

section
/-! Placed words (20_memory.md R40, R42): what is read after placing a word, and the step that runs it. -/
namespace Sys2Proof

open Sys2Proof.Machine Sys2Proof.Claims

/-! ## Reading after placing -/

/-- The big-endian word of a word's own four bytes. -/
theorem wordOfBytes_bytes (w : InstrWord) :
    wordOfBytes (w.extractLsb' 24 8) (w.extractLsb' 16 8) (w.extractLsb' 8 8) (w.extractLsb' 0 8) = w := by
  have := w.isLt
  apply BitVec.eq_of_toNat_eq
  simp only [wordOfBytes_toNat, extractLsb'_toNat_eq]
  omega

theorem read_placeWord_of_ne {m : Memory} {i j k : Nat} (hj : j ≠ i) (hk : k < 4) (w : InstrWord) :
    Memory.read (Memory.placeWord m i w) (4 * j + k) = Memory.read m (4 * j + k) := by
  have h0 : 4 * i ≠ 4 * j + k := by omega
  have h1 : 4 * i + 1 ≠ 4 * j + k := by omega
  have h2 : 4 * i + 1 + 1 ≠ 4 * j + k := by omega
  have h3 : 4 * i + 1 + 1 + 1 ≠ 4 * j + k := by omega
  simp only [Memory.placeWord, bytesOfWord, Memory.writeBytes, instrBytes, Memory.read_write, if_neg h0, if_neg h1,
    if_neg h2, if_neg h3]

theorem readWord_placeWord_self (m : Memory) (i : Nat) (w : InstrWord) :
    readWord (Memory.placeWord m i w) i = some w := by
  rw [← congrArg some (wordOfBytes_bytes w)]
  apply readWord_of_bytes <;>
    simp [Memory.placeWord, bytesOfWord, Memory.writeBytes, instrBytes, Memory.read_write, Nat.add_assoc]

theorem readWord_placeWord_of_ne {i j : Nat} (hj : j ≠ i) (m : Memory) (w : InstrWord) :
    readWord (Memory.placeWord m i w) j = readWord m j := by
  have hread (k : Nat) (hk : k < 4) := read_placeWord_of_ne (m := m) hj hk w
  have h0 := hread 0 (by decide)
  rw [Nat.add_zero] at h0
  simp only [readWord, instrBytes, h0, hread 1 (by decide), hread 2 (by decide), hread 3 (by decide)]

/-- Settles O52: by the index read. -/
theorem placedWordIsRead : Obligations.PlacedWordIsRead := by
  intro m i j w
  split
  case isTrue h =>
    subst h
    exact readWord_placeWord_self m j w
  case isFalse h => exact readWord_placeWord_of_ne h m w

/-! ## The placed instruction (log entry 8) -/

theorem runState_placeAtPc (s : State) (w : InstrWord) : runState (placeAtPc s w) = .running := by
  have hic : s.pc.toNat < max s.ic (s.pc.toNat + 1) := Nat.lt_of_succ_le (Nat.le_max_right _ _)
  exact (runState_running_iff _).mpr ⟨rfl, Int.natCast_nonneg _, Int.ofNat_lt.mpr hic⟩

theorem fetchWord_placeAtPc (s : State) (w : InstrWord) : fetchWord (placeAtPc s w) = some w :=
  readWord_placeWord_self s.image s.pc.toNat w

/-- Settles O53: the placed state is RUNNING and fetches the placed word. -/
theorem placedInstructionRuns : Obligations.PlacedInstructionRuns := by
  intro s w hw
  have hplaced : s.withFetchWord 32 w = placeAtPc s (BitVec.ofNat 32 w) := by
    rw [State.withFetchWord, Nat.mod_eq_of_lt hw]
  rw [hplaced]
  exact step_fetched (runState_placeAtPc s _) (fetchWord_placeAtPc s _)

end Sys2Proof
end

section
/-! The host's side of a launch (70_reset_and_hazards.md R180 to R182, R194): reset, `load_registers`, the bound on IC, and
the clean entry with its invariant. -/
namespace Sys2Proof

open Sys2Proof.Machine Sys2Proof.Claims

/-! ## Reset and `load_registers` (R180, R182) -/

theorem readReg_reset (r : RegIdx) : readReg State.reset r = 0 := Vector.getElem_replicate _

/-- A turn of R182's loop decides its own register. -/
theorem readReg_loadRegister (init : InitMap) (s : State) (i r : RegIdx) :
    readReg (loadRegister init s i) r = if i = r then (init[r]).getD (readReg s r) else readReg s r := by
  unfold loadRegister
  split
  case h_1 v hv =>
    rw [readReg_writeReg]
    split
    case isTrue h =>
      subst h
      simp [hv]
    case isFalse => rfl
  case h_2 hnone =>
    split
    case isTrue h =>
      subst h
      simp [hnone]
    case isFalse => rfl

/-- The loop over a list of indices decides the listed registers; a second turn for the same one changes nothing. -/
theorem readReg_foldl_loadRegister (init : InitMap) (is : List RegIdx) (s : State) (r : RegIdx) :
    readReg (is.foldl (loadRegister init) s) r = if r ∈ is then (init[r]).getD (readReg s r) else readReg s r := by
  induction is generalizing s with
  | nil => rfl
  | cons i is ih =>
    rw [List.foldl_cons, ih, readReg_loadRegister]
    by_cases h : i = r
    · cases hv : init[r] <;> simp [h]
    · simp [h, Ne.symm h]

theorem mem_allRegs (r : RegIdx) : r ∈ allRegs := by
  revert r
  decide

theorem readReg_loadRegisters (init : InitMap) (s : State) (r : RegIdx) :
    readReg (loadRegisters init s) r = (init[r]).getD (readReg s r) :=
  (readReg_foldl_loadRegister init allRegs s r).trans (if_pos (mem_allRegs r))

/-- Settles O55: all sixteen indices are in the loop, which writes registers only. -/
theorem loadRegistersWritesNamed : Obligations.LoadRegistersWritesNamed := by
  intro init s
  refine ⟨readReg_loadRegisters init s, ?_⟩
  obtain ⟨regs, h⟩ := foldl_loadRegister_eq_setRegs init allRegs s
  rw [loadRegisters, h]
  exact ⟨rfl, rfl, rfl, rfl, rfl, rfl⟩

/-- Settles O54: by the reset state's own fields. -/
theorem resetValues : Obligations.ResetValues :=
  ⟨readReg_reset, rfl, rfl, rfl, rfl, fun _ => ⟨readReg_reset, rfl, rfl, rfl, rfl, rfl, rfl⟩⟩

/-! ## The launch (R181, R194) -/

theorem icBound_iff (pcw ic : Nat) : icBound pcw ic = true ↔ (ic : Int) ≤ 2 ^ (pcw - 1) - 2 ^ 27 := by
  have hcast : ((2 ^ (pcw - 1) : Nat) : Int) = 2 ^ (pcw - 1) := by push_cast; rfl
  rw [icBound, decide_eq_true_iff, magWidth]
  omega

theorem launch_of_icBound {p : LaunchParams} (h : icBound p.pcw p.ic = true) : launch p = .next (launchState p) := if_pos h

theorem launch_of_not_icBound {p : LaunchParams} (h : ¬ icBound p.pcw p.ic = true) :
    launch p = .refused .icBoundViolated := if_neg h

theorem eq_launchState_of_launch {p : LaunchParams} {s : State} (h : launch p = .next s) : s = launchState p := by
  by_cases hb : icBound p.pcw p.ic = true
  · cases (launch_of_icBound hb).symm.trans h
    rfl
  · cases (launch_of_not_icBound hb).symm.trans h

theorem launchState_cleanEntry (p : LaunchParams) : CleanEntry p (launchState p) := by
  refine ⟨fun r => ?regs, ?_⟩
  case regs =>
    rw [launchState, readReg_loadRegisters]
    exact congrArg (Option.getD _) (readReg_reset r)
  obtain ⟨regs, h⟩ := launchState_eq_setRegs p
  rw [h]
  exact ⟨rfl, rfl, rfl, rfl, rfl, rfl⟩

/-- A clean entry with a canonical image meets the invariant, whatever IC is. -/
theorem CleanEntry.machineInv {p : LaunchParams} {s : State} (h : CleanEntry p s) (himage : Memory.wf p.image = true) :
    MachineInv s := by
  obtain ⟨-, -, hcmp, hpc, hfault, -, hsame⟩ := h
  exact
    { imageCanonical := hsame.symm ▸ himage
      flagsLegal := by rw [hcmp]; rfl
      pcLow := by rw [hpc]; decide
      pcHigh := by rw [hpc, magWidth]; omega
      faultInside := fun h => absurd (hfault.symm.trans h) Bool.false_ne_true }

/-- Settles O56: `launch` tests `icBound`, which is the bound over the integers. -/
theorem launchWithinBound : Obligations.LaunchWithinBound :=
  fun p _ => ⟨fun h => launch_of_icBound ((icBound_iff p.pcw p.ic).mpr h),
    fun h => launch_of_not_icBound fun hb => Int.not_le.mpr h ((icBound_iff p.pcw p.ic).mp hb)⟩

/-- Settles O57: a launch answers the launch state, which is a clean entry. -/
theorem launchIsCleanEntry : Obligations.LaunchIsCleanEntry := by
  intro p s himage h
  have hclean := launchState_cleanEntry p
  rw [← eq_launchState_of_launch h] at hclean
  exact ⟨hclean, hclean.machineInv himage⟩

/-- Settles O48: the reset state is the clean entry of an empty launch. -/
theorem resetMeetsInvariant : Obligations.ResetMeetsInvariant :=
  CleanEntry.machineInv (p := { ic := 0, image := [], init := Vector.replicate 16 none })
    ⟨fun r => by rw [readReg_reset]; simp, rfl, rfl, rfl, rfl, rfl, rfl⟩ rfl

end Sys2Proof
end

section
/-! The end of a run (60_exceptions.md R161 to R163, R178): the three terminal conditions, the result, and how a run comes to
each of them. -/
namespace Sys2Proof

open Sys2Proof.Machine Sys2Proof.Claims

/-! ## The terminal conditions and the result -/

/-- A state that is not RUNNING has ended in one of three ways, by its latch, `pc` and IC. -/
theorem ended_cases {s : State} (h : runState s ≠ .running) :
    (s.fault = true ∧ terminalCondition s = some .truncatedRead)
    ∨ (s.fault = false ∧ s.pc < 0 ∧ terminalCondition s = some .negativeProgramCounter)
    ∨ (s.fault = false ∧ s.pc ≥ s.ic ∧ terminalCondition s = some .normalEnd) := by
  cases hfault : s.fault
  case true => exact .inl ⟨rfl, terminalCondition_of_terminatedFault (runState_of_fault hfault)⟩
  case false =>
    by_cases hneg : s.pc < 0
    · exact .inr (.inl ⟨rfl, hneg, terminalCondition_of_terminatedError (runState_of_pc_neg hfault hneg)⟩)
    · have hpc : s.pc ≥ s.ic := Int.not_lt.mp fun hic =>
        h ((runState_running_iff s).mpr ⟨hfault, Int.not_lt.mp hneg, hic⟩)
      exact .inr (.inr ⟨rfl, hpc, terminalCondition_of_terminatedOk (runState_of_ic_le_pc hfault hpc)⟩)

theorem terminalCondition_eq_none_iff (s : State) : terminalCondition s = none ↔ runState s = .running := by
  constructor
  · refine fun h => Classical.byContradiction fun hr => ?_
    obtain ⟨-, hc⟩ | ⟨-, -, hc⟩ | ⟨-, -, hc⟩ := ended_cases hr <;> cases h.symm.trans hc
  · intro h
    simp [terminalCondition, h]

/-- OK is reported for the normal end alone. -/
theorem reportsOk_terminalCondition {s : State} {c : TerminalCondition} (h : terminalCondition s = some c) :
    reportsOk c = true ↔ s.fault = false ∧ s.pc ≥ s.ic := by
  have hr : runState s ≠ .running := fun hr => by
    cases ((terminalCondition_eq_none_iff s).mpr hr).symm.trans h
  obtain ⟨hfault, hc⟩ | ⟨-, hneg, hc⟩ | ⟨hfault, hpc, hc⟩ := ended_cases hr <;> cases h.symm.trans hc
  · simp [reportsOk, hfault]
  · simp only [reportsOk, Bool.false_eq_true, false_iff]
    omega
  · simp [reportsOk, hfault, hpc]

/-- Settles O59: the result is read off the state, with the condition that ended the run. -/
theorem resultIsTheFinalState : Obligations.ResultIsTheFinalState := by
  refine fun s => ⟨?readable, fun r h => ?result⟩
  case readable => rw [readResult, Option.map_eq_none_iff, terminalCondition_eq_none_iff]
  case result =>
    obtain ⟨c, hc, rfl⟩ := Option.map_eq_some_iff.mp h
    exact ⟨rfl, rfl, rfl, rfl, rfl, reportsOk_terminalCondition hc⟩

/-! ## What a run keeps, and its last step -/

/-- A run changes neither IC nor the image. -/
theorem runFor_constantImage (fuel : Nat) (s : State) : ConstantImage s (runFor fuel s) := by
  refine runFor_invariant (P := ConstantImage s) (fun u v hu h => ?_) fuel ⟨rfl, rfl⟩
  obtain ⟨huimage, huic⟩ := hu
  obtain ⟨himage, hic⟩ := step_constantImage h
  exact ⟨himage.trans huimage, hic.trans huic⟩

/-- A run that latches a fault does so in its last step, whose fetch failed. -/
theorem runEnds_fault {s t : State} (hs : s.fault = false) (h : RunEnds s t) (hfault : t.fault = true) :
    0 ≤ t.pc ∧ t.pc < s.ic ∧ readWord s.image t.pc.toNat = none := by
  obtain ⟨rfl, -⟩ | ⟨fuel, hstep⟩ := runEnds_last h
  · exact absurd (hs.symm.trans hfault) Bool.false_ne_true
  · obtain ⟨himage, hic⟩ := runFor_constantImage fuel s
    obtain ⟨hnone, rfl, hpc, hlt⟩ := step_fault hstep hfault
    rw [hic] at hlt
    rw [fetchWord, himage] at hnone
    exact ⟨hpc, hlt, hnone⟩

/-- Settles O60: the image by `runFor_constantImage`, the ending by `ended_cases`, and its cause by the last step. -/
theorem howARunEnds : Obligations.HowARunEnds := by
  intro s t hs h
  obtain ⟨himage, hic⟩ : ConstantImage s t := by
    obtain ⟨fuel, rfl, -⟩ := h
    exact runFor_constantImage fuel s
  have hended : runState t ≠ .running := by
    obtain ⟨-, -, hended⟩ := h
    exact hended
  refine ⟨hic, himage, fun hfault => ?fault, fun hfault => ?noFault, fun hwf => ?wellFormed, fun hpos hneg => ?negative⟩
  case fault => exact ⟨terminalCondition_of_terminatedFault (runState_of_fault hfault), runEnds_fault hs h hfault⟩
  case noFault =>
    obtain ⟨hlatched, -⟩ | ⟨-, hpc⟩ | ⟨-, hpc⟩ := ended_cases hended
    · exact absurd (hfault.symm.trans hlatched) Bool.false_ne_true
    · exact .inl hpc
    · exact .inr (hic ▸ hpc)
  case wellFormed =>
    refine Bool.eq_false_iff.mpr fun hfault => ?_
    obtain ⟨hpc, hlt, hnone⟩ := runEnds_fault hs h hfault
    exact Option.isSome_iff_ne_none.mp (hwf t.pc.toNat (by omega)) hnone
  case negative =>
    obtain ⟨rfl, -⟩ | ⟨fuel, hstep⟩ := runEnds_last h
    · exact absurd hpos (Int.not_le.mpr hneg)
    · obtain ⟨w, hw⟩ := backwardBranch_of_step_pc_neg hstep hneg
      obtain ⟨hrun, -⟩ := step_cases hstep
      exact ⟨fuel, _, w, rfl, hrun, hw⟩

end Sys2Proof
end
